-- ==== Sys2Proof/Word.lean ====
section
/-! DEFINITION. The widths of the machine's data: words, bytes and the fields of the command port.

R9: a word is 32 bits, unsigned, bit 31 the most significant. R90, R91: a command word is 16 bits, its address field
6 bits, the data words of the port 32 bits. Every word is unsigned, so no signed reading is defined anywhere. -/

namespace Sys2Proof

/-- A 32-bit word (R7 `WORD`, R9). -/
abbrev Word := BitVec 32

/-- A byte, a number 0..255 (R66). -/
abbrev Byte := BitVec 8

/-- The command word `CMD[15:0]` of the port (R90). -/
abbrev CmdWord := BitVec 16

/-- The field `ADDR`, `CMD[5:0]`: a byte or character address, used as it is (R90, R94). -/
abbrev Addr := BitVec 6

end Sys2Proof
end

