-- ==== Sys2Proof/Config.lean ====
section
/-! DEFINITION. The parameters of R7 and R8 that the rest of the model refers to by name.

None of them is configurable (R7). The engine leaves no value free that a step could read, so this file declares no
free value. The two open parameters of R8, `CYCLES_PER_STEP` and `N_ENGINES`, are used by no rule and stay unmodelled
(log entries 7 and 8). -/

namespace Sys2Proof

/-- `BLOCK_BYTES` (R7): the size of a block in bytes. -/
abbrev Config.blockBytes : Nat := 64

/-- `LEN_FIELD` (R7): the bytes of the length field of the padding. -/
abbrev Config.lenField : Nat := 8

/-- `MAX_MSG_BYTES` (R7): the largest message, in bytes. -/
abbrev Config.maxMsgBytes : Nat := 2 ^ 61 - 1

/-- Engine steps per block (R8, R41): 48 `EXPAND`, 64 `ROUND`, 1 `FOLD`. -/
abbrev Config.stepsPerBlock : Nat := 48 + 64 + 1

end Sys2Proof
end

