-- ==== Sys2Proof/Syntax.lean ====
section
/-! DEFINITION. The instructions: one constructor per row of the opcode table.

Nine rows are commands of the host (formats `C` and `A`, R94, R95); three are the engine's own steps (format `SEQ`,
R102), which the host cannot issue. A command that takes data carries its data operand: `WDATA[31:0]` for `WRW`,
`WDATA[7:0]` for `WRB` (R91, R94). The counter `t` of an engine step is state, not an operand. -/

namespace Sys2Proof

/-- The twelve rows of the opcode table. -/
inductive Instr where
  /-- `INIT` (R133): start a new hash computation. -/
  | init
  /-- `WRW A, v` (R140): write the word `v` to `BLK[A..A+3]`. -/
  | wrw (A : Addr) (v : Word)
  /-- `WRB A, b` (R141): write the byte `b` to `BLK[A]`. -/
  | wrb (A : Addr) (b : Byte)
  /-- `NEXT` (R134): consume the block and start processing it. -/
  | next
  /-- `FINAL` (R135): close the computation. -/
  | final
  /-- `RDW A` (R170): read one word of the digest. -/
  | rdw (A : Addr)
  /-- `RDB A` (R171): read one byte of the digest. -/
  | rdb (A : Addr)
  /-- `RDX A` (R172): read one character of the hexadecimal rendering. -/
  | rdx (A : Addr)
  /-- `RDS` (R137): read the status register. -/
  | rds
  /-- `EXPAND` (R152): the engine step that computes `W[t]`. -/
  | expand
  /-- `ROUND` (R161): the engine step that is round `t`. -/
  | round
  /-- `FOLD` (R163): the engine step that adds the working registers into `H`. -/
  | fold
deriving DecidableEq, Repr

end Sys2Proof
end

