-- ==== Sys2Proof/WellFormed.lean ====
section
/-! DEFINITION. Which terms of `Instr` an encoding exists for.

The only bound the syntax does not carry by its types: `RDW` and `RDB` address the 32 bytes of `DIG`, and a command
word with an address of 32 or more is a reserved encoding (R60, R97). Alignment is no part of it: a misaligned address
selects its row and the command then raises `Misaligned` (R95). -/

namespace Sys2Proof

/-- An address of `DIG` exists (R60: addresses 32..63 do not). -/
def digAddrExists (A : Addr) : Bool :=
  decide (A.toNat < 32)

/-- The instruction has an encoding. -/
def Instr.wf (i : Instr) : Bool :=
  match i with
  | .rdw A => digAddrExists A
  | .rdb A => digAddrExists A
  | .init => true
  | .wrw _ _ => true
  | .wrb _ _ => true
  | .next => true
  | .final => true
  | .rdx _ => true
  | .rds => true
  | .expand => true
  | .round => true
  | .fold => true

end Sys2Proof
end

