-- ==== Sys2Proof/Decode.lean ====
section
/-! DEFINITION. The decoder, total on every command word and every sequencer code, and the encoder.

A command is one transaction: the word `CMD[15:0] = OP[15:12] ‖ ZERO[11:6] ‖ ADDR[5:0]` and beside it `WDATA[31:0]`
(R90). The engine's own steps are selected by the 2-bit code of `SEQ` (R102). -/

namespace Sys2Proof

/-- What selects an instruction: a transaction of the host on the command port (R90), or the sequencer's code (R102). -/
inductive Code where
  | command (cmd : CmdWord) (wdata : Word)
  | sequencer (seq : BitVec 2)
deriving DecidableEq, Repr

/-- Why a code selects no row: the classes of R97, and the code 0 of `SEQ`, which selects no step (R102). -/
inductive Illegal where
  /-- `ZERO != 0`. -/
  | zeroField
  /-- `OP` is 0 or in 0xA..0xF. -/
  | reservedOp
  /-- `ADDR != 0` on a command of format `C`. -/
  | addrNotZero
  /-- `ADDR >= 32` on `RDW` or `RDB`. -/
  | addrBeyondDigest
  /-- `SEQ = IDLE` selects no step. -/
  | noStep
deriving DecidableEq, Repr

/-- What a code decodes to. -/
inductive Decoded where
  | legal (i : Instr)
  | illegal (why : Illegal)
deriving DecidableEq, Repr

/-- The field `OP`, `CMD[15:12]` (R90). -/
def opField (c : CmdWord) : BitVec 4 := c.extractLsb' 12 4

/-- The field `ZERO`, `CMD[11:6]` (R90). -/
def zeroField (c : CmdWord) : BitVec 6 := c.extractLsb' 6 6

/-- The field `ADDR`, `CMD[5:0]` (R90). -/
def addrField (c : CmdWord) : Addr := c.extractLsb' 0 6

/-- A command of format `C` has `ADDR = 0` (R94). -/
def formatC (A : Addr) (i : Instr) : Decoded :=
  if A = 0 then .legal i else .illegal .addrNotZero

/-- A command that addresses `DIG` has `ADDR < 32` (R95, R97). -/
def formatDig (A : Addr) (i : Instr) : Decoded :=
  if digAddrExists A then .legal i else .illegal .addrBeyondDigest

/-- R96 for a transaction, by its fields. `WDATA` is used by `WRW` and `WRB` alone (R91). -/
def decodeCommand (c : CmdWord) (wdata : Word) : Decoded :=
  if zeroField c ≠ 0 then .illegal .zeroField
  else
    match (opField c).toNat with
    | 1 => formatC (addrField c) .init
    | 2 => .legal (.wrw (addrField c) wdata)
    | 3 => .legal (.wrb (addrField c) (wdata.extractLsb' 0 8))
    | 4 => formatC (addrField c) .next
    | 5 => formatC (addrField c) .final
    | 6 => formatDig (addrField c) (.rdw (addrField c))
    | 7 => formatDig (addrField c) (.rdb (addrField c))
    | 8 => .legal (.rdx (addrField c))
    | 9 => formatC (addrField c) .rds
    | _ => .illegal .reservedOp

/-- R102: the engine step a code of `SEQ` selects. -/
def decodeSequencer (seq : BitVec 2) : Decoded :=
  match seq.toNat with
  | 1 => .legal .expand
  | 2 => .legal .round
  | 3 => .legal .fold
  | _ => .illegal .noStep

/-- The decoder. -/
def decode (code : Code) : Decoded :=
  match code with
  | .command c d => decodeCommand c d
  | .sequencer q => decodeSequencer q

/-- The command word with operation `op` and address `A`; its field `ZERO` is 0 (R90). -/
def cmdWord (op : BitVec 4) (A : Addr) : CmdWord := op ++ (0 : BitVec 6) ++ A

/-- The encoder, from R95 and R102. A command without write data is given `WDATA = 0`: a host may drive any value
there (R100). -/
def encode (i : Instr) : Code :=
  match i with
  | .init => .command (cmdWord 1 0) 0
  | .wrw A v => .command (cmdWord 2 A) v
  | .wrb A b => .command (cmdWord 3 A) (b.setWidth 32)
  | .next => .command (cmdWord 4 0) 0
  | .final => .command (cmdWord 5 0) 0
  | .rdw A => .command (cmdWord 6 A) 0
  | .rdb A => .command (cmdWord 7 A) 0
  | .rdx A => .command (cmdWord 8 A) 0
  | .rds => .command (cmdWord 9 0) 0
  | .expand => .sequencer 1
  | .round => .sequencer 2
  | .fold => .sequencer 3

/-- A row's `match` and `mask` as R95 and the opcode table print them. -/
inductive Row where
  | command (pattern mask : CmdWord)
  | sequencer (pattern mask : BitVec 2)
deriving DecidableEq, Repr

/-- The row of an instruction (R95, R102). -/
def tableRow (i : Instr) : Row :=
  match i with
  | .init => .command 0x1000 0xFFFF
  | .wrw _ _ => .command 0x2000 0xFFC0
  | .wrb _ _ => .command 0x3000 0xFFC0
  | .next => .command 0x4000 0xFFFF
  | .final => .command 0x5000 0xFFFF
  | .rdw _ => .command 0x6000 0xFFE0
  | .rdb _ => .command 0x7000 0xFFE0
  | .rdx _ => .command 0x8000 0xFFC0
  | .rds => .command 0x9000 0xFFFF
  | .expand => .sequencer 1 3
  | .round => .sequencer 2 3
  | .fold => .sequencer 3 3

/-- A code selects a row when `code AND mask = match` (R95). -/
def selects (code : Code) (r : Row) : Bool :=
  match code, r with
  | .command c _, .command pattern mask => c &&& mask == pattern
  | .sequencer q, .sequencer pattern mask => q &&& mask == pattern
  | .command _ _, .sequencer _ _ => false
  | .sequencer _, .command _ _ => false

/-- The code that a numeral of the opcode table stands for: a row of at most 8 bits is a code of `SEQ`; a longer one
is a command word with `WDATA` counting on from bit 16. `none` where the numeral has a bit that neither holds. -/
def codeOfTableWord (nbits w : Nat) : Option Code :=
  if nbits ≤ 8 then
    if w < 4 then some (.sequencer (BitVec.ofNat 2 w)) else none
  else if w < 2 ^ 48 then
    some (.command (BitVec.ofNat 16 w) (BitVec.ofNat 32 (w / 2 ^ 16)))
  else none

/-- The instruction the decoder reads from an instruction whose bits, numbered as the opcode table numbers them, are
`w`. -/
def decodeTableWord (nbits w : Nat) : Option Instr :=
  match codeOfTableWord nbits w with
  | none => none
  | some code =>
    match decode code with
    | .legal i => some i
    | .illegal _ => none

end Sys2Proof
end

