-- ==== Sys2Proof/Machine/State.lean ====
section
/-! DEFINITION. The state of one engine, and the state right after `RESET`.

The components of R20 under the names of the spec; the tables `K` and `IV` are constants, not state (R28), and stand in
`Machine/Tables.lean`. Three further fields are the model's own: the transactions the host has still to issue, the order
in which the agents of R14 take their turns, and the output lines of the last step (log entries 1, 2 and 3). -/

namespace Sys2Proof.Machine

/-- `PHASE` (R30): the lifecycle phase of the current computation. -/
inductive Phase where
  | uninit | initialized | processing | finalized
deriving DecidableEq, Repr

/-- `SEQ` (R32): the state of the sequencer. -/
inductive Seq where
  | idle | expand | round | fold
deriving DecidableEq, Repr

/-- The four causes of a fault of the command port (R200). -/
inductive Cause where
  | illegalCommand | misaligned | phaseError | blockIncomplete
deriving DecidableEq, Repr

/-- The working registers `v = (a, b, c, d, e, f, g, h)` (R21). -/
structure Working where
  a : Word
  b : Word
  c : Word
  d : Word
  e : Word
  f : Word
  g : Word
  h : Word
deriving DecidableEq, Repr

/-- The block buffer as the bytes written since the reset, by address, addresses strictly rising. An unlisted address
holds no value (R50). -/
abbrev Memory := List Host.Cell

/-- One transaction of the host on the command port (R90). -/
structure Command where
  cmd : CmdWord
  wdata : Word
deriving DecidableEq, Repr

/-- The response of a command (R92): outputs of its step. -/
structure Response where
  resp : BitVec 3
  rdata : Word
deriving DecidableEq, Repr

/-- Who takes the next step (R14). -/
inductive Turn where
  /-- The host: its oldest outstanding transaction is presented to the port. -/
  | host
  /-- The host issues an `RDS` while an older transaction stays presented (R73, R130). -/
  | poll
  /-- The host withdraws the transaction it is presenting (R230). -/
  | withdraw
  /-- The event `RESET` (R230). -/
  | reset
  /-- The engine sequencer (R14). -/
  | sequencer
deriving DecidableEq, Repr

/-- The state of one engine and of its port. -/
structure State where
  /-- `H[0..7]`, the digest state register (R22). -/
  H : Vector Word 8
  /-- `a..h`, the working registers (R21). -/
  v : Working
  /-- `W[0..63]`, the message schedule (R23). -/
  W : Vector Word 64
  /-- `BLK[0..63]`, the block buffer (R24). -/
  BLK : Memory
  /-- `BV[63:0]`, the byte-valid mask (R25). -/
  BV : BitVec 64
  /-- `PHASE` (R30). -/
  PHASE : Phase
  /-- `SEQ` (R32). -/
  SEQ : Seq
  /-- `t[5:0]`, the sequencer counter, 0..63 (R33). -/
  t : Fin 64
  /-- `ERR`, the sticky fault flag (R35). -/
  ERR : Bool
  /-- `CAUSE[2:0]`, the code of the first fault (R35). -/
  CAUSE : BitVec 3
  /-- The model's own: the transactions the host has still to issue, the one it presents first. A transaction that is
  held stays here until it is accepted (R130). -/
  pending : List Command
  /-- The model's own: whose turn the coming steps are. An empty list lets a transaction that is accepted go first and
  gives every other turn to the sequencer. -/
  schedule : List Turn
  /-- The model's own: `RESP` and `RDATA` of the last step, absent when it gave no response. Nothing reads it (R92). -/
  out : Option Response
deriving DecidableEq, Repr

/-- Why the model stops where the spec gives no behaviour. No step of a run from `RESET` ends in either. -/
inductive Fault where
  /-- Raised by `execExpand` when `t < 16`: R152 defines `EXPAND` for `t` in 16..63 only, and R40 (1) says that no run
  takes an `EXPAND` step with another value. Safe: the model stops. -/
  | expandIndex
  /-- Raised by `execNext` when `BV` calls a byte of `BLK` valid that nothing has written: R50 asks for a fault on such a
  read. Safe: the model stops. -/
  | byteWithoutValue
deriving DecidableEq, Repr

/-- Why an instruction has no meaning. -/
inductive Refusal where
  /-- Raised by an arm of `exec` whose instruction is not modelled. No arm is left in that form. Safe: the model
  stops. -/
  | notModelled (mnemonic : String)
deriving DecidableEq, Repr

/-- What one step ends in. -/
abbrev Result := Host.Outcome State Fault Refusal

/-- The state right after `RESET` (R51). The datapath registers `H`, `a..h` and `W` hold no value there; the model lets
them hold 0 (DESIGN CHOICE, unsafe, log entry 4). `BLK` lists nothing: its bytes hold no value. -/
def State.reset : State where
  H := Vector.replicate 8 0
  v := ⟨0, 0, 0, 0, 0, 0, 0, 0⟩
  W := Vector.replicate 64 0
  BLK := []
  BV := 0
  PHASE := .uninit
  SEQ := .idle
  t := 0
  ERR := false
  CAUSE := 0
  pending := []
  schedule := []
  out := none

end Sys2Proof.Machine
end

