-- ==== Sys2Proof/Machine/Flags.lean ====
section
/-! DEFINITION. Codes and flags: `BUSY`, `STATUS`, the cause codes and the permission table.

The engine keeps no arithmetic condition code (R35). `BUSY` and `STATUS` are views of the control state, not storage
(R32, R36). -/

namespace Sys2Proof.Machine

/-- The code of a phase (R30). -/
def Phase.code (p : Phase) : BitVec 2 :=
  match p with
  | .uninit => 0
  | .initialized => 1
  | .processing => 2
  | .finalized => 3

/-- The code of a sequencer state (R32). -/
def Seq.code (q : Seq) : BitVec 2 :=
  match q with
  | .idle => 0
  | .expand => 1
  | .round => 2
  | .fold => 3

/-- The code of a cause (R200); 0 is `OK` and 5 to 7 are never produced. -/
def Cause.code (c : Cause) : BitVec 3 :=
  match c with
  | .illegalCommand => 1
  | .misaligned => 2
  | .phaseError => 3
  | .blockIncomplete => 4

/-- `BUSY = (SEQ != IDLE)` (R32). -/
def State.BUSY (s : State) : Bool :=
  s.SEQ != .idle

/-- `STATUS = zext_32(CAUSE ‖ ERR ‖ BUSY ‖ PHASE)` (R36). -/
def State.STATUS (s : State) : Word :=
  (s.CAUSE ++ BitVec.ofBool s.ERR ++ BitVec.ofBool s.BUSY ++ s.PHASE.code).setWidth 32

/-- `BV = 0xFFFFFFFFFFFFFFFF`: every byte of the block is valid (R25). -/
def State.blockComplete (s : State) : Bool :=
  s.BV == 0xFFFFFFFFFFFFFFFF

/-- `PHASE` is one of the two phases in which a block may be loaded and consumed (R203). -/
def Phase.takesBlocks (p : Phase) : Bool :=
  match p with
  | .uninit => false
  | .initialized => true
  | .processing => true
  | .finalized => false

/-- The table of R203: the phases that permit an instruction. The engine's own steps are no commands, so no phase
forbids them. -/
def permitted (i : Instr) (p : Phase) : Bool :=
  match i with
  | .init => true
  | .wrw _ _ => p.takesBlocks
  | .wrb _ _ => p.takesBlocks
  | .next => p.takesBlocks
  | .final => p == .processing
  | .rdw _ => p == .finalized
  | .rdb _ => p == .finalized
  | .rdx _ => p == .finalized
  | .rds => true
  | .expand => true
  | .round => true
  | .fold => true

/-- `NEXT` needs a complete block; no other instruction does (R131 check 4). -/
def needsBlock (i : Instr) : Bool :=
  match i with
  | .next => true
  | .init => false
  | .wrw _ _ => false
  | .wrb _ _ => false
  | .final => false
  | .rdw _ => false
  | .rdb _ => false
  | .rdx _ => false
  | .rds => false
  | .expand => false
  | .round => false
  | .fold => false

end Sys2Proof.Machine
end

