-- ==== Sys2Proof/Machine/Operands.lean ====
section
/-! DEFINITION. Operand forms: addresses, alignment, and the bytes of a word.

The address operand is the field `ADDR`, used as it is: not scaled, not extended by a sign, added to nothing (R94). There
is no other addressing mode and no register operand. -/

namespace Sys2Proof.Machine

/-- `be32(b0, b1, b2, b3)` (R114): the word `b0 ‖ b1 ‖ b2 ‖ b3`. -/
def be32 (b0 b1 b2 b3 : Byte) : Word :=
  b0 ++ b1 ++ b2 ++ b3

/-- `byte_k(x)` for `k` in 0..3 (R114): `x[31-8k : 24-8k]`. -/
def byteOf (k : Nat) (x : Word) : Byte :=
  x.extractLsb' (24 - 8 * k) 8

/-- `ADDR[1:0] = 0` (R68). -/
def aligned (A : Addr) : Bool :=
  A.toNat % 4 == 0

/-- The address in `DIG` of `RDW` and `RDB`: `CMD[4:0]` (R170, R171). -/
def digAddr (A : Addr) : Fin 32 :=
  ⟨A.toNat % 32, Nat.mod_lt _ (by decide)⟩

/-- The instruction is a word access at an address that is no multiple of 4 (R68, R131 check 2). -/
def misaligned (i : Instr) : Bool :=
  match i with
  | .wrw A _ => !aligned A
  | .rdw A => !aligned A
  | .init => false
  | .wrb _ _ => false
  | .next => false
  | .final => false
  | .rdb _ => false
  | .rdx _ => false
  | .rds => false
  | .expand => false
  | .round => false
  | .fold => false

end Sys2Proof.Machine
end

