-- ==== Sys2Proof/Machine/Ops.lean ====
section
/-! DEFINITION. The named operations over the block buffer, the digest views, the response and the fault record.

The order in which an accepted command is checked and the action of a fault stand here once, for every command: R131,
R204 and R205. A fault transfers control nowhere, so there is no return from one (R208). -/

namespace Sys2Proof.Machine

/-- The byte at address `a`; `none` where nothing has written it since the reset (R50). -/
def Memory.read (m : Memory) (a : Nat) : Option Byte :=
  match m with
  | [] => none
  | c :: rest => if c.1 = a then some c.2 else Memory.read rest a

/-- Write one byte, keeping the addresses strictly rising. A byte whose valid bit is cleared later stays listed until it
is written again or the engine is reset; nothing reads it (DEDUCED, safe, log entry 14). -/
def Memory.write (m : Memory) (a : Nat) (b : Byte) : Memory :=
  match m with
  | [] => [(a, b)]
  | c :: rest =>
    if a < c.1 then (a, b) :: c :: rest
    else if a = c.1 then (a, b) :: rest
    else c :: Memory.write rest a b

/-- The canonical form: addresses strictly rising, all of them in the space `BLK`, 0..63 (R60). -/
abbrev Memory.wf (m : Memory) : Prop :=
  m.Pairwise (fun x y => x.1 < y.1) ∧ ∀ c ∈ m, c.1 < 64

/-- Every byte of the block holds a value. -/
def Memory.full (m : Memory) : Bool :=
  (List.range 64).all fun a => (m.read a).isSome

/-- The byte at `a` of a block of which every byte holds a value. -/
def Memory.byte (m : Memory) (a : Nat) : Byte :=
  (m.read a).getD 0

/-- `MemWrite(BLK, A, 1, b)` (R62). -/
def State.writeByte (s : State) (A : Addr) (b : Byte) : State :=
  { s with
    BLK := s.BLK.write A.toNat b
    BV := s.BV ||| (1#64 <<< A.toNat) }

/-- `MemWrite(BLK, A, 4, v)` (R62): the most significant byte at the lowest address. -/
def State.writeWord (s : State) (A : Addr) (v : Word) : State :=
  { s with
    BLK := (((s.BLK.write A.toNat (byteOf 0 v)).write (A.toNat + 1) (byteOf 1 v)).write (A.toNat + 2)
      (byteOf 2 v)).write (A.toNat + 3) (byteOf 3 v)
    BV := s.BV ||| (0b1111#64 <<< A.toNat) }

/-- `DIG[A]` (R63): byte `A mod 4` of `H[A div 4]`, a view of `H`. -/
def digByte (H : Vector Word 8) (A : Fin 32) : Byte :=
  byteOf (A.val % 4) (H[A.val / 4]'(by omega))

/-- `MemRead(DIG, A, 4)` (R64) for `A` a multiple of 4. -/
def digWord (H : Vector Word 8) (A : Fin 32) : Word :=
  be32 (digByte H A) (digByte H (A + 1)) (digByte H (A + 2)) (digByte H (A + 3))

/-- The code of a hexadecimal digit (R65): `0`..`9`, then the lowercase `a`..`f`. -/
def hexCode (nib : BitVec 4) : Byte :=
  if nib.toNat ≤ 9 then 0x30 + nib.setWidth 8 else 0x61 + (nib.setWidth 8 - 10)

/-- The address in `DIG` of the byte that character `A` of `HEX` renders a half of (R65). -/
def hexDigAddr (A : Addr) : Fin 32 :=
  ⟨A.toNat / 2, by omega⟩

/-- `HEX[A]` (R65): within a byte the high nibble comes first. -/
def hexChar (H : Vector Word 8) (A : Addr) : Byte :=
  if A.toNat % 2 = 0 then hexCode ((digByte H (hexDigAddr A)).extractLsb' 4 4)
  else hexCode ((digByte H (hexDigAddr A)).extractLsb' 0 4)

/-- `respond(0, data)` (R92): the command was executed. -/
def State.respond (s : State) (data : Word) : State :=
  { s with out := some ⟨0, data⟩ }

/-- `raise c` (R204): the response is the code of the cause, the fault record takes the first fault since the reset, and
nothing else changes. -/
def State.raise (s : State) (c : Cause) : State :=
  { s with
    ERR := true
    CAUSE := if s.ERR then s.CAUSE else c.code
    out := some ⟨c.code, 0⟩ }

/-- The first check of R131 that an instruction fails, in the priority of R205. Check 1 is the decoder's: what it
refuses is no term here, and a term without an encoding is treated the same way (DESIGN CHOICE, safe, log entry 9). -/
def firstFault (i : Instr) (s : State) : Option Cause :=
  if !i.wf then some .illegalCommand
  else if misaligned i then some .misaligned
  else if !permitted i s.PHASE then some .phaseError
  else if needsBlock i && !s.blockComplete then some .blockIncomplete
  else none

/-- R131: run the checks of an accepted command in order; a command that raises a fault executes nothing of its own. -/
def checked (i : Instr) (s : State) (effect : Result) : Result :=
  match firstFault i s with
  | some c => .next (s.raise c)
  | none => effect

/-- The advance of the counter within a state of the sequencer (R33): `t + 1`, or the state after it with `t = 0`. -/
def State.advance (s : State) (after : Seq) : State :=
  if s.t = 63 then { s with SEQ := after, t := 0 } else { s with t := s.t + 1 }

/-- The event `RESET` (R230): the state after reset, except that the host's transactions and turns are the host's and
stay. A transaction that was held is not executed (DEDUCED, safe, log entry 13). -/
def State.resetEvent (s : State) : State :=
  { State.reset with pending := s.pending, schedule := s.schedule }

end Sys2Proof.Machine
end

