-- ==== Sys2Proof/Machine/BlockLoad.lean ====
section
/-! DEFINITION. The block load commands `WRW` and `WRB` (R140, R141). -/

namespace Sys2Proof.Machine

/-- `WRW A, v` (R140). -/
def execWrw (A : Addr) (v : Word) (s : State) : Result :=
  checked (.wrw A v) s (.next ((s.writeWord A v).respond 0))

/-- `WRB A, b` (R141). -/
def execWrb (A : Addr) (b : Byte) (s : State) : Result :=
  checked (.wrb A b) s (.next ((s.writeByte A b).respond 0))

end Sys2Proof.Machine
end

