-- ==== Sys2Proof/Machine/Mixing.lean ====
section
/-! DEFINITION. Word arithmetic and the six mixing functions (R110 to R120): pure functions on unsigned 32-bit words. -/

namespace Sys2Proof.Machine

/-- `add32(x1, ..., xn)` (R110): the sum of the natural numbers, reduced modulo 2^32. -/
def add32 (xs : List Word) : Word :=
  BitVec.ofNat 32 (xs.map BitVec.toNat).sum

/-- `rotr(x, n)` for `0 < n < 32` (R111): circular right rotation. Other amounts never arise (log entry 10). -/
def rotr (x : Word) (n : Nat) : Word :=
  (x >>> n) ||| (x <<< (32 - n))

/-- `shr(x, n)` for `0 < n < 32` (R112): logical right shift. -/
def shr (x : Word) (n : Nat) : Word :=
  x >>> n

/-- `s0` (R115), used by `EXPAND`. -/
def s0 (x : Word) : Word := rotr x 7 ^^^ rotr x 18 ^^^ shr x 3

/-- `s1` (R116), used by `EXPAND`. -/
def s1 (x : Word) : Word := rotr x 17 ^^^ rotr x 19 ^^^ shr x 10

/-- `S0` (R117), used by `ROUND`. -/
def S0 (x : Word) : Word := rotr x 2 ^^^ rotr x 13 ^^^ rotr x 22

/-- `S1` (R118), used by `ROUND`. -/
def S1 (x : Word) : Word := rotr x 6 ^^^ rotr x 11 ^^^ rotr x 25

/-- `ch` (R119). The complement is taken within 32 bits (R113). -/
def ch (e f g : Word) : Word := (e &&& f) ^^^ (~~~e &&& g)

/-- `maj` (R120). -/
def maj (a b c : Word) : Word := (a &&& b) ^^^ (a &&& c) ^^^ (b &&& c)

end Sys2Proof.Machine
end

