-- ==== Sys2Proof/Machine/Schedule.lean ====
section
/-! DEFINITION. The message schedule as pure functions (R150, R151): the parse of a block and the recurrence. -/

namespace Sys2Proof.Machine

/-- The word the recurrence gives for index `i` in 16..63 (R151). -/
def scheduleWord (W : Vector Word 64) (i : Nat) (hi : 16 ≤ i ∧ i < 64) : Word :=
  add32 [W[i - 16]'(by omega), s0 (W[i - 15]'(by omega)), W[i - 7]'(by omega), s1 (W[i - 2]'(by omega))]

/-- Word `i` of a block given by its bytes (R150): four bytes from `4i`, big-endian. -/
def blockWord (byte : Nat → Byte) (i : Nat) : Word :=
  be32 (byte (4 * i)) (byte (4 * i + 1)) (byte (4 * i + 2)) (byte (4 * i + 3))

/-- The parse of R150: `W[0..15]` from the block; the other words stay. -/
def parseInto (W : Vector Word 64) (byte : Nat → Byte) : Vector Word 64 :=
  Vector.ofFn fun i => if i.val < 16 then blockWord byte i.val else W[i]

/-- The words `W[16..16+n-1]` by the recurrence in ascending order (R151), for `n` up to 48. -/
def expandWords (n : Nat) (W : Vector Word 64) : Vector Word 64 :=
  match n with
  | 0 => W
  | m + 1 =>
    if h : m < 48 then
      (expandWords m W).set (16 + m) (scheduleWord (expandWords m W) (16 + m) ⟨by omega, by omega⟩)
    else expandWords m W

/-- `expand(B)` (R151) for the block whose byte `j` is `byte j`: the parse, then the recurrence. -/
def expandBlock (byte : Nat → Byte) : Vector Word 64 :=
  expandWords 48 (parseInto (Vector.replicate 64 0) byte)

end Sys2Proof.Machine
end

