-- ==== Sys2Proof/Machine/Compression.lean ====
section
/-! DEFINITION. The compression function as pure functions (R160, R164): the round, the fold, a whole block, the chain
of blocks, and the digest (R173). -/

namespace Sys2Proof.Machine

/-- `temp1` of a round (R161). -/
def temp1 (v : Working) (k w : Word) : Word :=
  add32 [v.h, S1 v.e, ch v.e v.f v.g, k, w]

/-- `temp2` of a round (R161). -/
def temp2 (v : Working) : Word :=
  add32 [S0 v.a, maj v.a v.b v.c]

/-- `round(v, k, w)` (R164): every right-hand side is read from the old registers (R161). -/
def roundFn (v : Working) (k w : Word) : Working where
  a := add32 [temp1 v k w, temp2 v]
  b := v.a
  c := v.b
  d := v.c
  e := add32 [v.d, temp1 v k w]
  f := v.e
  g := v.f
  h := v.g

/-- The copy `a..h = H0..H7` (R160). -/
def Working.ofH (H : Vector Word 8) : Working :=
  ⟨H[0], H[1], H[2], H[3], H[4], H[5], H[6], H[7]⟩

/-- The fold (R163): each working register added into the word of `H` it was copied from. -/
def foldInto (H : Vector Word 8) (v : Working) : Vector Word 8 :=
  #v[add32 [H[0], v.a], add32 [H[1], v.b], add32 [H[2], v.c], add32 [H[3], v.d],
    add32 [H[4], v.e], add32 [H[5], v.f], add32 [H[6], v.g], add32 [H[7], v.h]]

/-- The working registers after the rounds `0..n-1` (R164, `v_n`), for `n` up to 64. -/
def rounds (n : Nat) (W : Vector Word 64) (v : Working) : Working :=
  match n with
  | 0 => v
  | m + 1 => if h : m < 64 then roundFn (rounds m W v) K[m] W[m] else rounds m W v

/-- `compress(S, Wd)` (R164). -/
def compress (S : Vector Word 8) (W : Vector Word 64) : Vector Word 8 :=
  foldInto S (rounds 64 W (Working.ofH S))

/-- `block(S, B)` (R164) for the block whose byte `j` is `byte j`. -/
def blockFn (S : Vector Word 8) (byte : Nat → Byte) : Vector Word 8 :=
  compress S (expandBlock byte)

/-- `S_n` of R166: the blocks of a list chained from the running state `S`. -/
def chain (S : Vector Word 8) (blocks : List (List Byte)) : Vector Word 8 :=
  blocks.foldl (fun T B => blockFn T fun j => B.getD j 0) S

/-- `assemble(S)` (R173): the eight words as four bytes each, most significant first. -/
def assemble (S : Vector Word 8) : List Byte :=
  S.toList.flatMap fun w => [byteOf 0 w, byteOf 1 w, byteOf 2 w, byteOf 3 w]

/-- `hex(D)` (R173): two lowercase hexadecimal digits for each byte, the high nibble first. -/
def hexString (D : List Byte) : List Byte :=
  D.flatMap fun b => [hexCode (b.extractLsb' 4 4), hexCode (b.extractLsb' 0 4)]

end Sys2Proof.Machine
end

