-- ==== Sys2Proof/Machine/Control.lean ====
section
/-! DEFINITION. The control commands `INIT`, `NEXT`, `FINAL` and `RDS` (R133, R134, R135, R137). -/

namespace Sys2Proof.Machine

/-- `INIT` (R133). -/
def execInit (s : State) : Result :=
  checked .init s (.next ({ s with H := IV, PHASE := .initialized, BV := 0 }.respond 0))

/-- The state after an executed `NEXT` (R134): the parse into `W[0..15]`, the copy of `H`, the block consumed, the
sequencer started. -/
def State.takeBlock (s : State) : State :=
  { s with
    W := parseInto s.W s.BLK.byte
    v := Working.ofH s.H
    BV := 0
    SEQ := .expand
    t := 16 }

/-- `NEXT` (R134). A byte that `BV` calls valid and that holds no value is a fault of the model, not of the engine
(R50). -/
def execNext (s : State) : Result :=
  checked .next s (if s.BLK.full then .next (s.takeBlock.respond 0) else .fault .byteWithoutValue)

/-- `FINAL` (R135). -/
def execFinal (s : State) : Result :=
  checked .final s (.next ({ s with PHASE := .finalized }.respond 0))

/-- `RDS` (R137). -/
def execRds (s : State) : Result :=
  checked .rds s (.next (s.respond s.STATUS))

end Sys2Proof.Machine
end

