-- ==== Sys2Proof/Machine/Expander.lean ====
section
/-! DEFINITION. The engine step `EXPAND` (R152). An engine step cannot fault in the sense of R200 and has no response. -/

namespace Sys2Proof.Machine

/-- `EXPAND` (R152), for `t` in 16..63. The spec gives no effect for another `t`, which no run reaches (R40): there the
model stops. -/
def execExpand (s : State) : Result :=
  if h : 16 ≤ s.t.val then
    .next ({ s with W := s.W.set s.t.val (scheduleWord s.W s.t.val ⟨h, s.t.isLt⟩) }.advance .round)
  else .fault .expandIndex

end Sys2Proof.Machine
end

