-- ==== Sys2Proof/Machine/Mixer.lean ====
section
/-! DEFINITION. The engine steps `ROUND` and `FOLD` (R161, R163). -/

namespace Sys2Proof.Machine

/-- `ROUND` (R161). -/
def execRound (s : State) : Result :=
  .next ({ s with v := roundFn s.v K[s.t] s.W[s.t] }.advance .fold)

/-- `FOLD` (R163). -/
def execFold (s : State) : Result :=
  .next { s with H := foldInto s.H s.v, PHASE := .processing, SEQ := .idle, t := 0 }

end Sys2Proof.Machine
end

