-- ==== Sys2Proof/Machine/Serializer.lean ====
section
/-! DEFINITION. The digest serializer `RDW`, `RDB` and `RDX` (R170, R171, R172). -/

namespace Sys2Proof.Machine

/-- `RDW A` (R170). -/
def execRdw (A : Addr) (s : State) : Result :=
  checked (.rdw A) s (.next (s.respond (digWord s.H (digAddr A))))

/-- `RDB A` (R171). -/
def execRdb (A : Addr) (s : State) : Result :=
  checked (.rdb A) s (.next (s.respond ((digByte s.H (digAddr A)).setWidth 32)))

/-- `RDX A` (R172). -/
def execRdx (A : Addr) (s : State) : Result :=
  checked (.rdx A) s (.next (s.respond ((hexChar s.H A).setWidth 32)))

end Sys2Proof.Machine
end

