-- ==== Sys2Proof/Machine/Dispatch.lean ====
section
/-! DEFINITION. One arm per instruction. -/

namespace Sys2Proof.Machine

def exec (i : Instr) (s : State) : Host.Outcome State Fault Refusal :=
  match i with
  | .init => Sys2Proof.Machine.execInit s
  | .wrw A v => Sys2Proof.Machine.execWrw A v s
  | .wrb A b => Sys2Proof.Machine.execWrb A b s
  | .next => Sys2Proof.Machine.execNext s
  | .final => Sys2Proof.Machine.execFinal s
  | .rdw A => Sys2Proof.Machine.execRdw A s
  | .rdb A => Sys2Proof.Machine.execRdb A s
  | .rdx A => Sys2Proof.Machine.execRdx A s
  | .rds => Sys2Proof.Machine.execRds s
  | .expand => Sys2Proof.Machine.execExpand s
  | .round => Sys2Proof.Machine.execRound s
  | .fold => Sys2Proof.Machine.execFold s

end Sys2Proof.Machine
end

