-- ==== Sys2Proof/Machine/Port.lean ====
section
/-! DEFINITION. The command port and the turns of the agents (R14, R130, R131, R230).

Two agents act, the host and the sequencer. `State.schedule` says in data whose turn a step is, so every interleaving of
host and sequencer is one list (R73; log entry 2). A host may poll beside a held transaction and may withdraw it
(DESIGN CHOICE, safe, log entry 12). -/

namespace Sys2Proof.Machine

/-- The word `0x9000`, which is `RDS` (R130). -/
def rdsWord : CmdWord := 0x9000

/-- `CMD_READY = (SEQ = IDLE) or (CMD = 0x9000)` (R93, R130), decided on the raw word. -/
def cmdReady (q : Seq) (c : CmdWord) : Bool :=
  q == .idle || c == rdsWord

/-- R131 for an accepted transaction: decode, then run the instruction; an illegal word raises `IllegalCommand`. -/
def accept (c : Command) (s : State) : Result :=
  match decodeCommand c.cmd c.wdata with
  | .legal i => exec i s
  | .illegal _ => .next (s.raise .illegalCommand)

/-- The host's turn: the transaction it presents is accepted and leaves the list, or is held and stays (R130). -/
def hostTurn (s : State) : Result :=
  match s.pending with
  | [] => .next s
  | c :: rest => if cmdReady s.SEQ c.cmd then accept c { s with pending := rest } else .next s

/-- The sequencer's turn: the step its code selects, none in `IDLE` (R14, R102). -/
def sequencerTurn (s : State) : Result :=
  match decodeSequencer s.SEQ.code with
  | .legal i => exec i s
  | .illegal _ => .next s

/-- One turn of an agent. -/
def runTurn (turn : Turn) (s : State) : Result :=
  match turn with
  | .host => hostTurn s
  | .poll => accept ⟨rdsWord, 0⟩ s
  | .withdraw => .next { s with pending := s.pending.tail }
  | .reset => .next s.resetEvent
  | .sequencer => sequencerTurn s

/-- Whose turn it is when the schedule names none: the host's if the transaction it presents is accepted, else the
sequencer's (R245: no host action but `RESET` can disable it). -/
def eagerTurn (s : State) : Turn :=
  match s.pending with
  | [] => .sequencer
  | c :: _ => if cmdReady s.SEQ c.cmd then .host else .sequencer

/-- Whose turn it is. -/
def nextTurn (s : State) : Turn :=
  match s.schedule with
  | [] => eagerTurn s
  | turn :: _ => turn

/-- The turn is taken from the schedule, and the response lines of the step before are gone (R92). -/
def State.beginStep (s : State) : State :=
  { s with schedule := s.schedule.tail, out := none }

/-- The state of the sequencer that a code names (R32). -/
def Seq.ofCode (q : BitVec 2) : Seq :=
  match q.toNat with
  | 1 => .expand
  | 2 => .round
  | 3 => .fold
  | _ => .idle

/-- The first value of `t` in a state of the sequencer (R33). -/
def Seq.firstIndex (q : Seq) : Fin 64 :=
  match q with
  | .idle => 0
  | .expand => 16
  | .round => 0
  | .fold => 0

/-- The state in which the very next step runs what `code` selects. A transaction is presented by a host whose turn it
is, to a port made idle where it would hold it; an engine step is selected by `(SEQ, t)`. -/
def State.withCode (s : State) (code : Code) : State :=
  match code with
  | .command c d =>
    { s with
      pending := ⟨c, d⟩ :: s.pending
      schedule := .host :: s.schedule
      SEQ := if cmdReady s.SEQ c then s.SEQ else .idle
      t := if cmdReady s.SEQ c then s.t else 0 }
  | .sequencer q =>
    { s with
      schedule := .sequencer :: s.schedule
      SEQ := Seq.ofCode q
      t := (Seq.ofCode q).firstIndex }

end Sys2Proof.Machine
end

