-- ==== Sys2Proof/Machine/Step.lean ====
section
/-! DEFINITION. One step of the machine: the turn of one agent (R14). -/

namespace Sys2Proof.Machine

/-- One atomic step. -/
def step (s : State) : Host.Outcome State Fault Refusal :=
  runTurn (nextTurn s) s.beginStep

/-- The state whose very next step runs the instruction of a numeral of the opcode table (log entry 6). -/
def State.withFetchWord (s : State) (nbits w : Nat) : State :=
  match codeOfTableWord nbits w with
  | none => s
  | some code => s.withCode code

end Sys2Proof.Machine
end

