-- ==== Sys2Proof/Machine/HostProcedure.lean ====
section
/-! DEFINITION. The host's duties (R101, R180 to R187): padding, the pseudo-instructions, and the one-shot procedure
`HASH` as the list of transactions it issues. None of this is engine hardware (R5). `pad` is totalized beyond the lengths
it is defined for, and `WAIT` is run against a list that says how many engine steps come before each of its polls (DESIGN
CHOICE, safe, log entry 15). -/

namespace Sys2Proof.Machine

/-- `be64(x)` (R181): eight bytes, most significant first. -/
def be64 (x : Nat) : List Byte :=
  (List.range Config.lenField).map fun k => (BitVec.ofNat 64 x).extractLsb' (56 - 8 * k) 8

/-- The loop of R181: append zero bytes until the length modulo 64 is 56. At most 63 rounds are needed, so 64 rounds of
fuel never run out. -/
def zeroFill (fuel : Nat) (P : List Byte) : List Byte :=
  match fuel with
  | 0 => P
  | n + 1 => if P.length % Config.blockBytes = 56 then P else zeroFill n (P ++ [0])

/-- `pad(m)` (R181). -/
def pad (m : List Byte) : List Byte :=
  zeroFill 64 (m ++ [0x80]) ++ be64 (8 * m.length)

/-- The blocks of a byte sequence, `n` of them, 64 bytes each, in order. -/
def blocksOf (n : Nat) (P : List Byte) : List (List Byte) :=
  (List.range n).map fun k => (P.drop (Config.blockBytes * k)).take Config.blockBytes

/-- The blocks of `pad(m)` (R184). -/
def paddedBlocks (m : List Byte) : List (List Byte) :=
  blocksOf ((pad m).length / Config.blockBytes) (pad m)

/-- The transaction that issues an instruction (R100). The host cannot issue an engine step: its code makes no legal
command word. -/
def transaction (i : Instr) : Command :=
  match encode i with
  | .command c d => ⟨c, d⟩
  | .sequencer q => ⟨q.setWidth 16, 0⟩

/-- `WRBLOCK B` (R101): 16 word writes in ascending address order. -/
def wrBlock (B : List Byte) : List Command :=
  (List.range 16).map fun i =>
    transaction (.wrw (BitVec.ofNat 6 (4 * i)) (blockWord (fun j => B.getD j 0) i))

/-- `WRBLOCKB B` (R101): 64 byte writes. -/
def wrBlockB (B : List Byte) : List Command :=
  (List.range 64).map fun j => transaction (.wrb (BitVec.ofNat 6 j) (B.getD j 0))

/-- `BLOCK B` (R101). -/
def blockCommands (B : List Byte) : List Command :=
  wrBlock B ++ [transaction .next]

/-- `RDDIGEST` (R101). -/
def rdDigest : List Command :=
  (List.range 8).map fun i => transaction (.rdw (BitVec.ofNat 6 (4 * i)))

/-- `RDHEX` (R101). -/
def rdHex : List Command :=
  (List.range 64).map fun j => transaction (.rdx (BitVec.ofNat 6 j))

/-- The string of `RDHEX` (R101): the character code of each word read, in order. -/
def hexOfWords (cs : List Word) : List Byte :=
  cs.map fun c => c.extractLsb' 0 8

/-- `s[2] = 0` for a word `s` that `RDS` returned: `WAIT` ends (R101, R36). -/
def waitDone (status : Word) : Bool :=
  !status.getLsbD 2

/-- The commands `WAIT` (R101) has issued once the given answers have arrived, in order: `RDS`, and again `RDS` after each
answer with `s[2] = 1`. -/
def waitCommands (answers : List Word) : List Command :=
  transaction .rds ::
    match answers with
    | [] => []
    | s :: rest => if waitDone s then [] else waitCommands rest

/-- One step in which `turn` comes before the turns of the schedule. -/
def takeTurn (turn : Turn) (s : State) : Result :=
  step { s with schedule := turn :: s.schedule }

/-- `n` turns of the sequencer. -/
def engineTurns (n : Nat) (s : State) : Result :=
  match n with
  | 0 => .next s
  | m + 1 =>
    match takeTurn .sequencer s with
    | .next s' => engineTurns m s'
    | .fault r => .fault r
    | .refused r => .refused r

/-- Where a run of `WAIT` stands. -/
inductive WaitResult where
  /-- An answer had `s[2] = 0`: the state then, and all the answers in order. -/
  | done (s : State) (answers : List Word)
  /-- No answer so far had `s[2] = 0`: `WAIT` goes on. -/
  | waiting (s : State) (answers : List Word)
  /-- The model stopped. -/
  | stopped
deriving DecidableEq, Repr

/-- An answer that came before the answers of a result. -/
def WaitResult.after (answer : Word) (r : WaitResult) : WaitResult :=
  match r with
  | .done s answers => .done s (answer :: answers)
  | .waiting s answers => .waiting s (answer :: answers)
  | .stopped => .stopped

/-- One `RDS` of `WAIT`: the state after it and the word it returned. -/
def pollStatus (s : State) : Option (State × Word) :=
  match takeTurn .poll s with
  | .next s' => s'.out.map fun r => (s', r.rdata)
  | .fault _ => none
  | .refused _ => none

/-- `WAIT` (R101): repeat `RDS -> s` until `s[2] = 0`. How many engine steps fall before each `RDS` is not determined
(R73); `gaps` gives their numbers, one for each `RDS` the run has time for. -/
def wait (gaps : List Nat) (s : State) : WaitResult :=
  match gaps with
  | [] => .waiting s []
  | n :: rest =>
    match engineTurns n s with
    | .next s₁ =>
      match pollStatus s₁ with
      | some (s₂, status) => if waitDone status then .done s₂ [status] else (wait rest s₂).after status
      | none => .stopped
    | .fault _ => .stopped
    | .refused _ => .stopped

/-- What stops `HASH` before it issues a command (R183). -/
inductive HostFailure where
  | lengthOverflow
deriving DecidableEq, Repr

/-- What `HASH` does: it fails, or issues transactions. -/
inductive HashPlan where
  | failed (why : HostFailure)
  | issue (cmds : List Command)
deriving DecidableEq, Repr

/-- The transactions of `HASH` for a message the check of R183 lets through (R184). -/
def hashCommands (m : List Byte) : List Command :=
  transaction .init :: (paddedBlocks m).flatMap blockCommands ++ transaction .final :: rdDigest

/-- `HASH(m)` up to its reads (R184): the check of R183 first, before any command. -/
def hashPlan (m : List Byte) : HashPlan :=
  if Config.maxMsgBytes < m.length then .failed .lengthOverflow else .issue (hashCommands m)

/-- The digest `HASH` puts together from the words it reads (R184): four bytes of each, most significant first. -/
def digestOfWords (ds : List Word) : List Byte :=
  ds.flatMap fun d => [byteOf 0 d, byteOf 1 d, byteOf 2 d, byteOf 3 d]

/-- `assemble(S_n)` of R185: the digest of a message, as a pure function. -/
def digest (m : List Byte) : List Byte :=
  assemble (chain IV (paddedBlocks m))

end Sys2Proof.Machine
end

