-- ==== Sys2Proof/Safety.lean ====
section
/-! DEFINITION. What the claims are stated in: runs, what a run shows at the port, the invariant of R40, and when two
states differ only in what holds no value. -/

namespace Sys2Proof.Machine

/-- `n` steps lead from `s` to `s'` and give the responses `rs`, in order. -/
def Runs (n : Nat) (s : State) (rs : List Response) (s' : State) : Prop :=
  match n with
  | 0 => rs = [] ∧ s' = s
  | m + 1 => ∃ s₁ rest, step s = .next s₁ ∧ rs = s₁.out.toList ++ rest ∧ Runs m s₁ rest s'

/-- A byte of `BLK` whose valid bit is set holds a value (R25, R50). -/
abbrev BytesValued (s : State) : Prop :=
  ∀ a, a < 64 → s.BV.getLsbD a = true → (s.BLK.read a).isSome = true

/-- The invariant of every reachable state (R40), with the canonical form of `BLK` and the validity of its bytes. Item 5
is kept in the stronger form that holds while the first block is processed too; items 3 and 6 say that registers hold a
value, which every register of the model does. Item 7 follows from `busyPhase`. -/
structure Inv (s : State) : Prop where
  counterZero : s.SEQ = .idle ∨ s.SEQ = .fold → s.t = 0
  counterExpand : s.SEQ = .expand → 16 ≤ s.t.val
  busyPhase : s.SEQ ≠ .idle → (s.PHASE = .initialized ∨ s.PHASE = .processing) ∧ s.BV = 0
  cause : (s.ERR = false → s.CAUSE = 0) ∧ (s.ERR = true → 1 ≤ s.CAUSE.toNat ∧ s.CAUSE.toNat ≤ 4)
  initialized : s.PHASE = .initialized → s.H = IV
  block : s.BLK.wf
  valued : BytesValued s

/-- The schedule gives no turn, and the transaction presented, if any, is not `RDS`: while the engine is busy every step
is an engine step. -/
abbrev Undisturbed (s : State) : Prop :=
  s.schedule = [] ∧ ∀ c, s.pending.head? = some c → c.cmd ≠ rdsWord

/-- The engine steps left until the sequencer is idle (R33, R41). -/
def remaining (s : State) : Nat :=
  match s.SEQ with
  | .idle => 0
  | .expand => (64 - s.t.val) + 64 + 1
  | .round => (64 - s.t.val) + 1
  | .fold => 1

/-- A phase in which the engine is taking blocks (R203: `WRW`, `WRB` and `NEXT` are permitted). -/
abbrev TakesBlocks (p : Phase) : Prop :=
  p = .initialized ∨ p = .processing

/-- The two states agree on everything that holds a value (R50): all of the control state and of the port; `BLK` where
it is valid; `H` once a computation has started; of `W` and `a..h` what the block in progress has written. -/
structure SameValues (s₁ s₂ : State) : Prop where
  control : s₁.BV = s₂.BV ∧ s₁.PHASE = s₂.PHASE ∧ s₁.SEQ = s₂.SEQ ∧ s₁.t = s₂.t ∧ s₁.ERR = s₂.ERR ∧ s₁.CAUSE = s₂.CAUSE
  port : s₁.pending = s₂.pending ∧ s₁.schedule = s₂.schedule ∧ s₁.out = s₂.out
  block : ∀ a, a < 64 → s₁.BV.getLsbD a = true → s₁.BLK.read a = s₂.BLK.read a
  digest : s₁.PHASE ≠ .uninit → s₁.H = s₂.H
  working : s₁.SEQ ≠ .idle → s₁.v = s₂.v
  expanding : s₁.SEQ = .expand → ∀ i (hi : i < 64), i < s₁.t.val → s₁.W[i] = s₂.W[i]
  mixing : s₁.SEQ = .round ∨ s₁.SEQ = .fold → s₁.W = s₂.W

/-- The primes below a bound, by trial division. -/
def primesBelow (n : Nat) : List Nat :=
  (List.range n).filter fun p => 2 ≤ p && (List.range p).all fun d => d < 2 || p % d != 0

/-- A number written as bytes, most significant first. -/
def fromBytes (bs : List Byte) : Nat :=
  bs.foldl (fun n b => n * 256 + b.toNat) 0

end Sys2Proof.Machine
end

