-- ==== Sys2Proof/Certificates/Slice0/Obligations.lean ====
section
/-! DEFINITION. The statements for the provers. Every statement about a next state gives the whole state, so it is its
own frame: a field that the record update does not name is unchanged. -/

open Sys2Proof Sys2Proof.Machine

/-! ## Encoding -/

/-- R95, R96, R102: no bit of an encoding is dropped. -/
def Obligations.DecodeEncodeRoundTrip : Prop :=
  ∀ i : Instr, i.wf = true → decode (encode i) = .legal i

/-- R95, R96: what decodes is well formed, and the encoder gives its command word back. `WDATA` is not compared: most
commands ignore it (R91). -/
def Obligations.DecodedWordsReencode : Prop :=
  ∀ (c : CmdWord) (d : Word) (i : Instr), decodeCommand c d = .legal i →
    i.wf = true ∧ ∃ d', encode i = .command c d'

/-- R96: the decoder, written by fields, is the decoder by `match` and `mask`. -/
def Obligations.DecoderFollowsMatchAndMask : Prop :=
  ∀ (c : CmdWord) (d : Word),
    (c &&& 0xFFFF = 0x1000 → decodeCommand c d = .legal .init) ∧
    (c &&& 0xFFC0 = 0x2000 → decodeCommand c d = .legal (.wrw (c.extractLsb' 0 6) d)) ∧
    (c &&& 0xFFC0 = 0x3000 → decodeCommand c d = .legal (.wrb (c.extractLsb' 0 6) (d.extractLsb' 0 8))) ∧
    (c &&& 0xFFFF = 0x4000 → decodeCommand c d = .legal .next) ∧
    (c &&& 0xFFFF = 0x5000 → decodeCommand c d = .legal .final) ∧
    (c &&& 0xFFE0 = 0x6000 → decodeCommand c d = .legal (.rdw (c.extractLsb' 0 6))) ∧
    (c &&& 0xFFE0 = 0x7000 → decodeCommand c d = .legal (.rdb (c.extractLsb' 0 6))) ∧
    (c &&& 0xFFC0 = 0x8000 → decodeCommand c d = .legal (.rdx (c.extractLsb' 0 6))) ∧
    (c &&& 0xFFFF = 0x9000 → decodeCommand c d = .legal .rds) ∧
    (c &&& 0xFFFF ≠ 0x1000 → c &&& 0xFFC0 ≠ 0x2000 → c &&& 0xFFC0 ≠ 0x3000 → c &&& 0xFFFF ≠ 0x4000 →
      c &&& 0xFFFF ≠ 0x5000 → c &&& 0xFFE0 ≠ 0x6000 → c &&& 0xFFE0 ≠ 0x7000 → c &&& 0xFFC0 ≠ 0x8000 →
      c &&& 0xFFFF ≠ 0x9000 → ∃ why, decodeCommand c d = .illegal why)

/-- R97: the illegal words are exactly the listed ones, and an accepted one changes the fault record and nothing else. -/
def Obligations.IllegalWordsAreExactlyTheListed : Prop :=
  ∀ (c : CmdWord) (d : Word),
    ((∃ why, decodeCommand c d = .illegal why) ↔
      c.toNat ≤ 0x0FFF ∨ 0xA000 ≤ c.toNat ∨ c.extractLsb' 6 6 ≠ 0 ∨
      (0x1001 ≤ c.toNat ∧ c.toNat ≤ 0x103F) ∨ (0x4001 ≤ c.toNat ∧ c.toNat ≤ 0x403F) ∨
      (0x5001 ≤ c.toNat ∧ c.toNat ≤ 0x503F) ∨ (0x9001 ≤ c.toNat ∧ c.toNat ≤ 0x903F) ∨
      (0x6020 ≤ c.toNat ∧ c.toNat ≤ 0x603F) ∨ (0x7020 ≤ c.toNat ∧ c.toNat ≤ 0x703F)) ∧
    ∀ s : State, (∃ why, decodeCommand c d = .illegal why) →
      accept ⟨c, d⟩ s = .next { s with ERR := true, CAUSE := if s.ERR then s.CAUSE else 1, out := some ⟨1, 0⟩ }

/-- R102: the sequencer's code selects the engine step. -/
def Obligations.SequencerCodeSelectsTheStep : Prop :=
  ∀ s : State,
    (s.SEQ = .expand → decode (.sequencer s.SEQ.code) = .legal .expand ∧ s.SEQ.code = 1) ∧
    (s.SEQ = .round → decode (.sequencer s.SEQ.code) = .legal .round ∧ s.SEQ.code = 2) ∧
    (s.SEQ = .fold → decode (.sequencer s.SEQ.code) = .legal .fold ∧ s.SEQ.code = 3) ∧
    (s.SEQ = .idle → decode (.sequencer s.SEQ.code) = .illegal .noStep ∧ s.SEQ.code = 0)

/-- A sanity check: words written out from R95, field by field, decode to what they stand for. -/
def Obligations.SampleWordsDecode : Prop :=
  decodeCommand 0b0001_000000_000000 0 = .legal .init ∧
  decodeCommand 0b0010_000000_111100 0x61626380 = .legal (.wrw 60 0x61626380) ∧
  decodeCommand 0b0011_000000_111111 0x000001ff = .legal (.wrb 63 0xff) ∧
  decodeCommand 0b0110_000000_011100 0 = .legal (.rdw 28) ∧
  decodeCommand 0b1000_000000_111111 0 = .legal (.rdx 63) ∧
  decodeCommand 0b1001_000000_000000 0 = .legal .rds ∧
  decodeCommand 0b0110_000000_100000 0 = .illegal .addrBeyondDigest

/-! ## The port and the step -/

/-- A step runs the decoded instruction: an accepted transaction of the host, an `RDS` issued beside a held one, or the
step the sequencer's code selects. What the step adds: the turn leaves the schedule, the transaction leaves the host's
list, and the response of the step before is gone. A turn that selects nothing (the sequencer's in `IDLE`, R14 and R102;
the host's with nothing presented) and a withdrawal (R230) change no component of R20. The host's list, the schedule and
the response lines are the model's own (log entries 1 to 3), and so are the turns poll and withdraw (log entry 12). -/
def Obligations.StepRunsTheDecodedInstruction : Prop :=
  (∀ (s : State) (c : Command) (rest : List Command) (i : Instr),
    nextTurn s = .host → s.pending = c :: rest → s.SEQ = .idle ∨ c.cmd = 0x9000 →
    decode (.command c.cmd c.wdata) = .legal i →
    step s = exec i { s with pending := rest, schedule := s.schedule.tail, out := none }) ∧
  (∀ s : State, nextTurn s = .poll → step s = exec .rds { s with schedule := s.schedule.tail, out := none }) ∧
  (∀ (s : State) (i : Instr), nextTurn s = .sequencer → decode (.sequencer s.SEQ.code) = .legal i →
    step s = exec i { s with schedule := s.schedule.tail, out := none }) ∧
  (∀ s : State, nextTurn s = .sequencer → s.SEQ = .idle →
    step s = .next { s with schedule := s.schedule.tail, out := none }) ∧
  (∀ s : State, nextTurn s = .host → s.pending = [] →
    step s = .next { s with schedule := s.schedule.tail, out := none }) ∧
  (∀ s : State, nextTurn s = .withdraw →
    step s = .next { s with pending := s.pending.tail, schedule := s.schedule.tail, out := none }) ∧
  (∀ (s : State) (c : Command) (rest : List Command), s.schedule = [] → s.pending = c :: rest →
    s.SEQ = .idle ∨ c.cmd = 0x9000 → nextTurn s = .host) ∧
  (∀ s : State, s.schedule = [] → s.SEQ ≠ .idle → (∀ c, s.pending.head? = some c → c.cmd ≠ 0x9000) →
    nextTurn s = .sequencer)

/-- R130: a command is accepted when the sequencer is idle or its word is exactly 0x9000; otherwise it is held, which
has no effect and no response, and it stays presented; the test is on the raw word, so an illegal word is held too. A
hold is lifted by the `FOLD` step or by `RESET` only, and at most 113 engine steps lift it. -/
def Obligations.CommandsAreAcceptedOrHeld : Prop :=
  (∀ (s : State) (c : Command) (rest : List Command), nextTurn s = .host → s.pending = c :: rest →
    (s.SEQ = .idle ∨ c.cmd = 0x9000 →
      step s = accept c { s with pending := rest, schedule := s.schedule.tail, out := none }) ∧
    (s.SEQ ≠ .idle → c.cmd ≠ 0x9000 →
      step s = .next { s with schedule := s.schedule.tail, out := none })) ∧
  (∀ s s' : State, step s = .next s' → s.SEQ ≠ .idle → s'.SEQ = .idle →
    nextTurn s = .reset ∨ (nextTurn s = .sequencer ∧ s.SEQ = .fold)) ∧
  (∀ s : State, Inv s → s.SEQ ≠ .idle → Undisturbed s →
    ∃ n s', n ≤ 113 ∧ Runs n s [] s' ∧ s'.SEQ = .idle ∧ s'.pending = s.pending)

/-- R33, R41: from any busy state of a run the sequencer reaches `IDLE` after exactly the engine steps that are left,
113 right after `NEXT`, and not before. -/
def Obligations.BusyLastsExactlyTheRemainingSteps : Prop :=
  ∀ s : State, Inv s → s.SEQ ≠ .idle → Undisturbed s →
    (∃ s', Runs (remaining s) s [] s' ∧ s'.SEQ = .idle ∧ s'.t = 0 ∧ s'.PHASE = .processing) ∧
    (∀ m, m < remaining s → ∃ s', Runs m s [] s' ∧ s'.SEQ ≠ .idle ∧ s'.PHASE = s.PHASE) ∧
    (s.SEQ = .expand → s.t = 16 → remaining s = 113)

/-! ## Reset -/

/-- R230: `RESET` may occur in any state and leaves the control state of R51 and no byte of `BLK` with a value. A
transaction that was held is not executed and stays with the host. The values of `H`, `a..h` and `W` after it are the
model's choice (log entry 4) and are not stated. -/
def Obligations.ResetEventClearsTheControlState : Prop :=
  ∀ s : State, nextTurn s = .reset → ∃ s', step s = .next s' ∧
    s'.PHASE = .uninit ∧ s'.SEQ = .idle ∧ s'.t = 0 ∧ s'.ERR = false ∧ s'.CAUSE = 0 ∧ s'.BV = 0 ∧
    (∀ a, s'.BLK.read a = none) ∧ s'.pending = s.pending ∧ s'.schedule = s.schedule.tail ∧ s'.out = none

/-- R51: the control state after reset, and `STATUS` as read there. -/
def Obligations.ResetStateHasTheListedValues : Prop :=
  State.reset.PHASE = .uninit ∧ State.reset.SEQ = .idle ∧ State.reset.t = 0 ∧ State.reset.ERR = false ∧
  State.reset.CAUSE = 0 ∧ State.reset.BV = 0 ∧ (∀ a, State.reset.BLK.read a = none) ∧
  exec .rds State.reset = .next { State.reset with out := some ⟨0, 0x00000000⟩ }

/-! ## The control commands -/

/-- R133: `INIT` in every phase. The digest register is given by its values (R26). -/
def Obligations.InitStartsAComputation : Prop :=
  (∀ s : State, exec .init s =
    .next { s with
      H := #v[0x6a09e667, 0xbb67ae85, 0x3c6ef372, 0xa54ff53a, 0x510e527f, 0x9b05688c, 0x1f83d9ab, 0x5be0cd19]
      PHASE := .initialized
      BV := 0
      out := some ⟨0, 0⟩ }) ∧
  (∀ d : Word, decodeCommand 0x1000 d = .legal .init) ∧
  (∀ q : Seq, cmdReady q 0x1000 = true ↔ q = .idle)

/-- R134: `NEXT`, its two faults and, when the block is complete, its one atomic step. That the bytes whose valid bit is
set hold a value is an invariant of every run (`InvariantKeptByEveryStep`). -/
def Obligations.NextTakesTheBlock : Prop :=
  (∀ s : State, s.PHASE = .uninit ∨ s.PHASE = .finalized → exec .next s =
    .next { s with ERR := true, CAUSE := if s.ERR then s.CAUSE else 3, out := some ⟨3, 0⟩ }) ∧
  (∀ s : State, TakesBlocks s.PHASE → s.BV ≠ 0xFFFFFFFFFFFFFFFF → exec .next s =
    .next { s with ERR := true, CAUSE := if s.ERR then s.CAUSE else 4, out := some ⟨4, 0⟩ }) ∧
  (∀ s : State, TakesBlocks s.PHASE → s.BV = 0xFFFFFFFFFFFFFFFF → BytesValued s →
    ∃ W : Vector Word 64, exec .next s =
      .next { s with
        W := W
        v := ⟨s.H[0], s.H[1], s.H[2], s.H[3], s.H[4], s.H[5], s.H[6], s.H[7]⟩
        BV := 0
        SEQ := .expand
        t := 16
        out := some ⟨0, 0⟩ } ∧
      (∀ i (hi : i < 64) (b0 b1 b2 b3 : Byte), i < 16 → s.BLK.read (4 * i) = some b0 →
        s.BLK.read (4 * i + 1) = some b1 → s.BLK.read (4 * i + 2) = some b2 → s.BLK.read (4 * i + 3) = some b3 →
        W[i].toNat = b0.toNat * 2 ^ 24 + b1.toNat * 2 ^ 16 + b2.toNat * 2 ^ 8 + b3.toNat) ∧
      (∀ i (hi : i < 64), 16 ≤ i → W[i] = s.W[i])) ∧
  (∀ d : Word, decodeCommand 0x4000 d = .legal .next) ∧
  (∀ q : Seq, cmdReady q 0x4000 = true ↔ q = .idle)

/-- R135: `FINAL` in every phase. -/
def Obligations.FinalClosesTheComputation : Prop :=
  (∀ s : State, s.PHASE = .processing → exec .final s =
    .next { s with PHASE := .finalized, out := some ⟨0, 0⟩ }) ∧
  (∀ s : State, s.PHASE ≠ .processing → exec .final s =
    .next { s with ERR := true, CAUSE := if s.ERR then s.CAUSE else 3, out := some ⟨3, 0⟩ }) ∧
  (∀ d : Word, decodeCommand 0x5000 d = .legal .final) ∧
  (∀ q : Seq, cmdReady q 0x5000 = true ↔ q = .idle)

/-- R36, R137: `RDS` returns `STATUS`, field by field, changes nothing, never faults, and is accepted while `BUSY`. The
last clause is the list of the values that can be returned. -/
def Obligations.RdsReturnsTheStatusRegister : Prop :=
  (∀ s : State, ∃ w : Word, exec .rds s = .next { s with out := some ⟨0, w⟩ } ∧
    w.toNat =
      (match s.PHASE with
        | .uninit => 0
        | .initialized => 1
        | .processing => 2
        | .finalized => 3) +
      (if s.SEQ = .idle then 0 else 4) + (if s.ERR then 8 else 0) + 16 * s.CAUSE.toNat) ∧
  (∀ d : Word, decodeCommand 0x9000 d = .legal .rds) ∧
  (∀ q : Seq, cmdReady q 0x9000 = true) ∧
  (∀ (A : Addr) (d : Word), A ≠ 0 → (∃ why, decodeCommand (0x9000 + A.setWidth 16) d = .illegal why) ∧
    ∀ q : Seq, cmdReady q (0x9000 + A.setWidth 16) = true ↔ q = .idle) ∧
  (∀ s : State, Inv s →
    (s.STATUS.toNat / 4 % 2 = 1 → s.STATUS.toNat % 4 = 1 ∨ s.STATUS.toNat % 4 = 2) ∧
    (s.STATUS.toNat / 8 = 0 ∨
      (s.STATUS.toNat / 8 % 2 = 1 ∧ 1 ≤ s.STATUS.toNat / 16 ∧ s.STATUS.toNat / 16 ≤ 4)))

/-! ## The block load commands -/

/-- R140: `WRW A, v` stores the word most significant byte first at `A..A+3`, and only there. -/
def Obligations.WrwStoresAWordBigEndian : Prop :=
  (∀ (A : Addr) (v : Word) (s : State), A.toNat % 4 ≠ 0 → exec (.wrw A v) s =
    .next { s with ERR := true, CAUSE := if s.ERR then s.CAUSE else 2, out := some ⟨2, 0⟩ }) ∧
  (∀ (A : Addr) (v : Word) (s : State), A.toNat % 4 = 0 → s.PHASE = .uninit ∨ s.PHASE = .finalized →
    exec (.wrw A v) s =
      .next { s with ERR := true, CAUSE := if s.ERR then s.CAUSE else 3, out := some ⟨3, 0⟩ }) ∧
  (∀ (A : Addr) (v : Word) (s : State), A.toNat % 4 = 0 → TakesBlocks s.PHASE →
    ∃ (m : Memory) (bv : BitVec 64), exec (.wrw A v) s = .next { s with BLK := m, BV := bv, out := some ⟨0, 0⟩ } ∧
      m.read A.toNat = some (v.extractLsb' 24 8) ∧ m.read (A.toNat + 1) = some (v.extractLsb' 16 8) ∧
      m.read (A.toNat + 2) = some (v.extractLsb' 8 8) ∧ m.read (A.toNat + 3) = some (v.extractLsb' 0 8) ∧
      (∀ a, a < A.toNat ∨ A.toNat + 3 < a → m.read a = s.BLK.read a) ∧
      (∀ a, a < 64 → bv.getLsbD a = (decide (A.toNat ≤ a ∧ a ≤ A.toNat + 3) || s.BV.getLsbD a))) ∧
  (∀ (A : Addr) (d : Word), decodeCommand (0x2000 + A.setWidth 16) d = .legal (.wrw A d)) ∧
  (∀ (q : Seq) (A : Addr), cmdReady q (0x2000 + A.setWidth 16) = true ↔ q = .idle)

/-- R141: `WRB A, v` stores `WDATA[7:0]` at `A`, and only there; `WDATA[31:8]` is ignored. -/
def Obligations.WrbStoresOneByte : Prop :=
  (∀ (A : Addr) (b : Byte) (s : State), s.PHASE = .uninit ∨ s.PHASE = .finalized → exec (.wrb A b) s =
    .next { s with ERR := true, CAUSE := if s.ERR then s.CAUSE else 3, out := some ⟨3, 0⟩ }) ∧
  (∀ (A : Addr) (b : Byte) (s : State), TakesBlocks s.PHASE →
    ∃ (m : Memory) (bv : BitVec 64), exec (.wrb A b) s = .next { s with BLK := m, BV := bv, out := some ⟨0, 0⟩ } ∧
      m.read A.toNat = some b ∧ (∀ a, a ≠ A.toNat → m.read a = s.BLK.read a) ∧
      (∀ a, a < 64 → bv.getLsbD a = (decide (a = A.toNat) || s.BV.getLsbD a))) ∧
  (∀ (A : Addr) (d : Word), decodeCommand (0x3000 + A.setWidth 16) d = .legal (.wrb A (d.extractLsb' 0 8))) ∧
  (∀ (q : Seq) (A : Addr), cmdReady q (0x3000 + A.setWidth 16) = true ↔ q = .idle)

/-- R67: a word written is exactly the four byte writes, in their effect on the whole state. -/
def Obligations.WordWriteIsFourByteWrites : Prop :=
  ∀ (A : Addr) (v : Word) (s : State), A.toNat % 4 = 0 → TakesBlocks s.PHASE →
    ∃ s₁ s₂ s₃ s₄, exec (.wrb A (v.extractLsb' 24 8)) s = .next s₁ ∧
      exec (.wrb (A + 1) (v.extractLsb' 16 8)) s₁ = .next s₂ ∧
      exec (.wrb (A + 2) (v.extractLsb' 8 8)) s₂ = .next s₃ ∧
      exec (.wrb (A + 3) (v.extractLsb' 0 8)) s₃ = .next s₄ ∧ exec (.wrw A v) s = .next s₄

/-- R142: the order of writes to different bytes does not matter to the state, the last write to a byte wins, and
`WRBLOCK` leaves the block in `BLK` with every byte valid. -/
def Obligations.LoadingOrderDoesNotMatter : Prop :=
  (∀ (A B : Addr) (x y : Byte) (s : State), s.BLK.wf → A ≠ B → TakesBlocks s.PHASE →
    ∃ s₁ s₂ s', exec (.wrb A x) s = .next s₁ ∧ exec (.wrb B y) s₁ = .next s' ∧
      exec (.wrb B y) s = .next s₂ ∧ exec (.wrb A x) s₂ = .next s') ∧
  (∀ (A : Addr) (x y : Byte) (s : State), TakesBlocks s.PHASE →
    ∃ s₁ s', exec (.wrb A x) s = .next s₁ ∧ exec (.wrb A y) s₁ = .next s' ∧ exec (.wrb A y) s = .next s') ∧
  (∀ (B : List Byte) (s : State) (rest : List Command), B.length = 64 → TakesBlocks s.PHASE → s.SEQ = .idle →
    s.schedule = [] → s.pending = wrBlock B ++ rest →
    ∃ m : Memory, Runs 16 s (List.replicate 16 ⟨0, 0⟩)
        { s with BLK := m, BV := 0xFFFFFFFFFFFFFFFF, pending := rest, out := some ⟨0, 0⟩ } ∧
      ∀ j (hj : j < B.length), m.read j = some B[j])

/-! ## The engine steps -/

/-- R152: `EXPAND`. The recurrence is spelled with the library's rotation, shift and addition. -/
def Obligations.ExpandComputesTheNextScheduleWord : Prop :=
  ∀ (s : State) (h : 16 ≤ s.t.val), s.SEQ = .expand →
    ∃ w : Word,
      w = s.W[s.t.val - 16]'(by omega) +
        ((s.W[s.t.val - 15]'(by omega)).rotateRight 7 ^^^ (s.W[s.t.val - 15]'(by omega)).rotateRight 18 ^^^
          (s.W[s.t.val - 15]'(by omega)) >>> 3) +
        s.W[s.t.val - 7]'(by omega) +
        ((s.W[s.t.val - 2]'(by omega)).rotateRight 17 ^^^ (s.W[s.t.val - 2]'(by omega)).rotateRight 19 ^^^
          (s.W[s.t.val - 2]'(by omega)) >>> 10) ∧
      (s.t.val < 63 → exec .expand s = .next { s with W := s.W.set s.t.val w, t := s.t + 1 }) ∧
      (s.t.val = 63 → exec .expand s = .next { s with W := s.W.set s.t.val w, SEQ := .round, t := 0 })

/-- R161: `ROUND`, spelled with the library's rotation and addition. -/
def Obligations.RoundMixesTheWorkingRegisters : Prop :=
  ∀ s : State, s.SEQ = .round →
    ∃ T1 T2 : Word,
      T1 = s.v.h + (s.v.e.rotateRight 6 ^^^ s.v.e.rotateRight 11 ^^^ s.v.e.rotateRight 25) +
        ((s.v.e &&& s.v.f) ^^^ (~~~s.v.e &&& s.v.g)) + K[s.t.val] + s.W[s.t.val] ∧
      T2 = (s.v.a.rotateRight 2 ^^^ s.v.a.rotateRight 13 ^^^ s.v.a.rotateRight 22) +
        ((s.v.a &&& s.v.b) ^^^ (s.v.a &&& s.v.c) ^^^ (s.v.b &&& s.v.c)) ∧
      (s.t.val < 63 → exec .round s =
        .next { s with v := ⟨T1 + T2, s.v.a, s.v.b, s.v.c, s.v.d + T1, s.v.e, s.v.f, s.v.g⟩, t := s.t + 1 }) ∧
      (s.t.val = 63 → exec .round s =
        .next { s with
          v := ⟨T1 + T2, s.v.a, s.v.b, s.v.c, s.v.d + T1, s.v.e, s.v.f, s.v.g⟩
          SEQ := .fold
          t := 0 })

/-- R163: `FOLD` adds the working registers of the state before the step into `H`. -/
def Obligations.FoldAddsTheWorkingRegisters : Prop :=
  ∀ s : State, s.SEQ = .fold → exec .fold s =
    .next { s with
      H := #v[s.H[0] + s.v.a, s.H[1] + s.v.b, s.H[2] + s.v.c, s.H[3] + s.v.d,
        s.H[4] + s.v.e, s.H[5] + s.v.f, s.H[6] + s.v.g, s.H[7] + s.v.h]
      PHASE := .processing
      SEQ := .idle
      t := 0 }

/-- R72: engine steps never read `BLK` or `BV`, touch only `W`, `a..h`, `t` and `SEQ`, and in `FOLD` `H` and `PHASE`;
they give no response. -/
def Obligations.EngineStepsTouchOnlyTheDatapath : Prop :=
  ∀ (i : Instr) (s s' : State), i = .expand ∨ i = .round ∨ i = .fold → exec i s = .next s' →
    s' = { s with W := s'.W, v := s'.v, t := s'.t, SEQ := s'.SEQ, H := s'.H, PHASE := s'.PHASE } ∧
    (i ≠ .fold → s'.H = s.H ∧ s'.PHASE = s.PHASE) ∧
    (∀ (m : Memory) (bv : BitVec 64), exec i { s with BLK := m, BV := bv } = .next { s' with BLK := m, BV := bv })

/-! ## The digest serializer -/

/-- R170: `RDW A` returns `H[A div 4]`. An address of 32 or more has no encoding (R97). -/
def Obligations.RdwReturnsAWordOfTheDigest : Prop :=
  (∀ (A : Addr) (s : State), A.toNat < 32 → A.toNat % 4 ≠ 0 → exec (.rdw A) s =
    .next { s with ERR := true, CAUSE := if s.ERR then s.CAUSE else 2, out := some ⟨2, 0⟩ }) ∧
  (∀ (A : Addr) (s : State), A.toNat < 32 → A.toNat % 4 = 0 → s.PHASE ≠ .finalized → exec (.rdw A) s =
    .next { s with ERR := true, CAUSE := if s.ERR then s.CAUSE else 3, out := some ⟨3, 0⟩ }) ∧
  (∀ (A : Addr) (s : State) (hA : A.toNat < 32), A.toNat % 4 = 0 → s.PHASE = .finalized → exec (.rdw A) s =
    .next { s with out := some ⟨0, s.H[A.toNat / 4]'(by omega)⟩ }) ∧
  (∀ (A : Addr) (d : Word), A.toNat < 32 → decodeCommand (0x6000 + A.setWidth 16) d = .legal (.rdw A)) ∧
  (∀ (A : Addr) (d : Word), 32 ≤ A.toNat → ∃ why, decodeCommand (0x6000 + A.setWidth 16) d = .illegal why) ∧
  (∀ (q : Seq) (A : Addr), cmdReady q (0x6000 + A.setWidth 16) = true ↔ q = .idle)

/-- R171: `RDB A` returns byte `A mod 4` of `H[A div 4]`, byte 0 the most significant. -/
def Obligations.RdbReturnsAByteOfTheDigest : Prop :=
  (∀ (A : Addr) (s : State), A.toNat < 32 → s.PHASE ≠ .finalized → exec (.rdb A) s =
    .next { s with ERR := true, CAUSE := if s.ERR then s.CAUSE else 3, out := some ⟨3, 0⟩ }) ∧
  (∀ (A : Addr) (s : State) (hA : A.toNat < 32), s.PHASE = .finalized →
    ∃ w : Word, exec (.rdb A) s = .next { s with out := some ⟨0, w⟩ } ∧
      w.toNat = (s.H[A.toNat / 4]'(by omega)).toNat / 2 ^ (24 - 8 * (A.toNat % 4)) % 256) ∧
  (∀ (A : Addr) (d : Word), A.toNat < 32 → decodeCommand (0x7000 + A.setWidth 16) d = .legal (.rdb A)) ∧
  (∀ (A : Addr) (d : Word), 32 ≤ A.toNat → ∃ why, decodeCommand (0x7000 + A.setWidth 16) d = .illegal why) ∧
  (∀ (q : Seq) (A : Addr), cmdReady q (0x7000 + A.setWidth 16) = true ↔ q = .idle)

/-- R172, R65: `RDX A` returns the code of hexadecimal digit `A` of the digest, the most significant digit of `H[0]`
first. -/
def Obligations.RdxReturnsACharacterOfTheDigest : Prop :=
  (∀ (A : Addr) (s : State), s.PHASE ≠ .finalized → exec (.rdx A) s =
    .next { s with ERR := true, CAUSE := if s.ERR then s.CAUSE else 3, out := some ⟨3, 0⟩ }) ∧
  (∀ (A : Addr) (s : State), s.PHASE = .finalized →
    ∃ (w : Word) (nib : Nat), exec (.rdx A) s = .next { s with out := some ⟨0, w⟩ } ∧
      nib = (s.H[A.toNat / 8]'(by omega)).toNat / 2 ^ (28 - 4 * (A.toNat % 8)) % 16 ∧
      w.toNat = if nib ≤ 9 then 0x30 + nib else 0x61 + nib - 10) ∧
  (∀ (A : Addr) (d : Word), decodeCommand (0x8000 + A.setWidth 16) d = .legal (.rdx A)) ∧
  (∀ (q : Seq) (A : Addr), cmdReady q (0x8000 + A.setWidth 16) = true ↔ q = .idle)

/-- R173: in phase `FINALIZED` the spaces `DIG` and `HEX`, read unit by unit, are `assemble(H)` and `hex(assemble(H))`:
32 bytes and 64 characters. -/
def Obligations.ReadsAgreeWithAssembleAndHex : Prop :=
  ∀ s : State, s.PHASE = .finalized →
    (assemble s.H).length = 32 ∧ (hexString (assemble s.H)).length = 64 ∧
    (∀ A : Addr, A.toNat < 32 → ∃ b : Byte, (assemble s.H)[A.toNat]? = some b ∧
      exec (.rdb A) s = .next { s with out := some ⟨0, b.setWidth 32⟩ }) ∧
    (∀ A : Addr, ∃ b : Byte, (hexString (assemble s.H))[A.toNat]? = some b ∧
      exec (.rdx A) s = .next { s with out := some ⟨0, b.setWidth 32⟩ })

/-- R174: while `PHASE = FINALIZED` the digest stays; only `INIT` and `RESET` end that. -/
def Obligations.FinalizedDigestIsStable : Prop :=
  ∀ s s' : State, Inv s → s.PHASE = .finalized → step s = .next s' →
    nextTurn s = .reset ∨
    (nextTurn s = .host ∧ ∃ c rest, s.pending = c :: rest ∧ c.cmd = 0x1000) ∨
    (s'.PHASE = .finalized ∧ s'.H = s.H)

/-! ## Faults -/

/-- R204: whatever the instruction, a response that is not `OK` comes with the fault record and with no other change.
The codes of R200 are the only ones. A step clears the response lines first, so `out` is absent before it. -/
def Obligations.FaultChangesOnlyTheRecord : Prop :=
  ∀ (i : Instr) (s s' : State) (r : Response), s.out = none → exec i s = .next s' → s'.out = some r → r.resp ≠ 0 →
    s' = { s with ERR := true, CAUSE := if s.ERR then s.CAUSE else r.resp, out := some r } ∧ r.rdata = 0 ∧
    1 ≤ r.resp.toNat ∧ r.resp.toNat ≤ 4

/-- R131, R205: an accepted transaction raises at most one fault, the first of illegal, misaligned, phase, incomplete
block; with none of them it responds `OK`. -/
def Obligations.FirstFailingCheckDecides : Prop :=
  ∀ (c : Command) (s : State), BytesValued s →
    ∃ (s' : State) (r : Response), accept c s = .next s' ∧ s'.out = some r ∧
      r.resp =
        (match decodeCommand c.cmd c.wdata with
          | .illegal _ => 1
          | .legal (.wrw A _) =>
            if A.toNat % 4 ≠ 0 then 2 else if s.PHASE = .uninit ∨ s.PHASE = .finalized then 3 else 0
          | .legal (.wrb _ _) => if s.PHASE = .uninit ∨ s.PHASE = .finalized then 3 else 0
          | .legal .next =>
            if s.PHASE = .uninit ∨ s.PHASE = .finalized then 3
            else if s.BV ≠ 0xFFFFFFFFFFFFFFFF then 4 else 0
          | .legal .final => if s.PHASE ≠ .processing then 3 else 0
          | .legal (.rdw A) => if A.toNat % 4 ≠ 0 then 2 else if s.PHASE ≠ .finalized then 3 else 0
          | .legal (.rdb _) => if s.PHASE ≠ .finalized then 3 else 0
          | .legal (.rdx _) => if s.PHASE ≠ .finalized then 3 else 0
          | .legal _ => 0)

/-- R203: the permission table, as the response each command gives in each phase. -/
def Obligations.PhasePermissionTable : Prop :=
  ∀ (i : Instr) (s s' : State) (r : Response), i.wf = true → (∀ A v, i = .wrw A v → A.toNat % 4 = 0) →
    (∀ A, i = .rdw A → A.toNat % 4 = 0) → s.out = none → exec i s = .next s' → s'.out = some r →
    (r.resp = 3 ↔
      match i with
      | .wrw _ _ => s.PHASE = .uninit ∨ s.PHASE = .finalized
      | .wrb _ _ => s.PHASE = .uninit ∨ s.PHASE = .finalized
      | .next => s.PHASE = .uninit ∨ s.PHASE = .finalized
      | .final => s.PHASE = .uninit ∨ s.PHASE = .initialized ∨ s.PHASE = .finalized
      | .rdw _ => s.PHASE = .uninit ∨ s.PHASE = .initialized ∨ s.PHASE = .processing
      | .rdb _ => s.PHASE = .uninit ∨ s.PHASE = .initialized ∨ s.PHASE = .processing
      | .rdx _ => s.PHASE = .uninit ∨ s.PHASE = .initialized ∨ s.PHASE = .processing
      | _ => False)

/-- R208: only `RESET` clears the fault record, a later fault leaves `CAUSE` at the first one's code, and `ERR` and
`CAUSE` influence nothing but the value `RDS` returns. -/
def Obligations.FaultRecordIsStickyAndInert : Prop :=
  (∀ s s' : State, step s = .next s' → nextTurn s ≠ .reset → s.ERR = true → s'.ERR = true ∧ s'.CAUSE = s.CAUSE) ∧
  (∀ (i : Instr) (s s' : State) (e : Bool) (k : BitVec 3), i ≠ .rds → exec i s = .next s' →
    ∃ (e' : Bool) (k' : BitVec 3), exec i { s with ERR := e, CAUSE := k } = .next { s' with ERR := e', CAUSE := k' }) ∧
  (∀ (s s' : State) (e : Bool) (k : BitVec 3), exec .rds s = .next s' →
    ∃ o : Option Response, exec .rds { s with ERR := e, CAUSE := k } =
      .next { s' with ERR := e, CAUSE := k, out := o })

/-- The model's own stops (log entry 5): `exec` refuses nothing, and it stops only in an `EXPAND` outside its range of
`t` and in a `NEXT` that would read a byte with no value. That no step of a run stops is `NoStateOfARunIsStuck`. -/
def Obligations.ModelStopsOnlyWhereNoValueExists : Prop :=
  ∀ (i : Instr) (s : State),
    (∃ s', exec i s = .next s') ∨
    (i = .expand ∧ s.t.val < 16 ∧ exec i s = .fault .expandIndex) ∨
    (i = .next ∧ s.BV = 0xFFFFFFFFFFFFFFFF ∧ ¬ BytesValued s ∧ exec i s = .fault .byteWithoutValue)

/-! ## The whole machine -/

/-- R31: the phase changes in the listed ways and in no other. -/
def Obligations.PhaseChangesAsListed : Prop :=
  ∀ s s' : State, Inv s → step s = .next s' → s'.PHASE ≠ s.PHASE →
    (nextTurn s = .reset ∧ s'.PHASE = .uninit) ∨
    (nextTurn s = .host ∧ s.SEQ = .idle ∧ (∃ c rest, s.pending = c :: rest ∧ c.cmd = 0x1000) ∧
      s'.PHASE = .initialized) ∨
    (nextTurn s = .sequencer ∧ s.SEQ = .fold ∧ (s.PHASE = .initialized ∨ s.PHASE = .processing) ∧
      s'.PHASE = .processing) ∨
    (nextTurn s = .host ∧ s.SEQ = .idle ∧ (∃ c rest, s.pending = c :: rest ∧ c.cmd = 0x5000) ∧
      s.PHASE = .processing ∧ s'.PHASE = .finalized)

/-- R33: the path of `(SEQ, t)` through a block, started by an accepted `NEXT`, from which only `RESET` departs. -/
def Obligations.SequencerFollowsTheFixedPath : Prop :=
  ∀ s s' : State, Inv s → step s = .next s' → s'.SEQ ≠ s.SEQ ∨ s'.t ≠ s.t →
    (nextTurn s = .reset ∧ s'.SEQ = .idle ∧ s'.t = 0) ∨
    (nextTurn s = .host ∧ (∃ c rest, s.pending = c :: rest ∧ c.cmd = 0x4000) ∧ s.SEQ = .idle ∧ s.t = 0 ∧
      s'.SEQ = .expand ∧ s'.t = 16) ∨
    (nextTurn s = .sequencer ∧
      ((s.SEQ = .expand ∧ s.t.val < 63 ∧ s'.SEQ = .expand ∧ s'.t.val = s.t.val + 1) ∨
       (s.SEQ = .expand ∧ s.t = 63 ∧ s'.SEQ = .round ∧ s'.t = 0) ∨
       (s.SEQ = .round ∧ s.t.val < 63 ∧ s'.SEQ = .round ∧ s'.t.val = s.t.val + 1) ∨
       (s.SEQ = .round ∧ s.t = 63 ∧ s'.SEQ = .fold ∧ s'.t = 0) ∨
       (s.SEQ = .fold ∧ s'.SEQ = .idle ∧ s'.t = 0)))

/-- R22: `H` is written at exactly two places, `INIT` and `FOLD`. -/
def Obligations.DigestRegisterHasTwoWriters : Prop :=
  ∀ (i : Instr) (s s' : State), exec i s = .next s' → s'.H ≠ s.H → i = .init ∨ i = .fold

/-- R40: every step keeps the invariant. -/
def Obligations.InvariantKeptByEveryStep : Prop :=
  ∀ s s' : State, Inv s → step s = .next s' → Inv s'

/-- R40: the state after reset has the invariant. -/
def Obligations.InvariantHoldsAtReset : Prop :=
  Inv State.reset

/-- R245: no state of a run is stuck, and once not `BUSY` it accepts `INIT` and `RDS`. -/
def Obligations.NoStateOfARunIsStuck : Prop :=
  (∀ s : State, Inv s → ∃ s', step s = .next s') ∧
  (∀ (s : State) (d : Word), s.SEQ = .idle →
    (∃ s', accept ⟨0x1000, d⟩ s = .next s' ∧ s'.out = some ⟨0, 0⟩) ∧
    (∃ s' w, accept ⟨0x9000, d⟩ s = .next s' ∧ s'.out = some ⟨0, w⟩))

/-! ## Interleaving and what the port shows -/

/-- R73: an `RDS` may fall anywhere between engine steps. It returns `STATUS` and changes nothing, and leaving all of
them out gives the same state but for the response lines. -/
def Obligations.PollsDoNotDisturbTheBlock : Prop :=
  (∀ s : State, nextTurn s = .poll →
    step s = .next { s with schedule := s.schedule.tail, out := some ⟨0, s.STATUS⟩ }) ∧
  (∀ (turns rest : List Turn) (s s' : State) (rs : List Response),
    (∀ turn ∈ turns, turn = .poll ∨ turn = .sequencer) → s.schedule = turns ++ rest →
    Runs turns.length s rs s' →
    rs.length = turns.count .poll ∧ (∀ r ∈ rs, r.resp = 0) ∧
    ∃ o : Option Response, Runs (turns.count .sequencer)
      { s with schedule := List.replicate (turns.count .sequencer) .sequencer ++ rest, out := none } []
      { s' with out := o })

/-- R136: no part of `H`, `a..h` or `W` shows at the port while `PHASE` is not `FINALIZED`: two states that differ only
there step alike. -/
def Obligations.RunningStateIsNotObservable : Prop :=
  ∀ (s s' : State) (H : Vector Word 8) (v : Working) (W : Vector Word 64), s.PHASE ≠ .finalized → step s = .next s' →
    ∃ (H' : Vector Word 8) (v' : Working) (W' : Vector Word 64),
      step { s with H := H, v := v, W := W } = .next { s' with H := H', v := v', W := W' }

/-- R50, R243 (2): what holds no value is never observable, whatever bits stand there. So the values the model names at
reset (log entry 4) are visible in no response. -/
def Obligations.ValuelessRegistersAreNeverObserved : Prop :=
  ∀ s₁ s₂ s₁' : State, Inv s₁ → Inv s₂ → SameValues s₁ s₂ → step s₁ = .next s₁' →
    ∃ s₂', step s₂ = .next s₂' ∧ SameValues s₁' s₂'

/-! ## The functions of the algorithm -/

/-- R110: addition modulo 2^32 of two or more words; the terms may be taken in any order and grouping. -/
def Obligations.AdditionWrapsInAnyOrder : Prop :=
  (∀ xs : List Word, (add32 xs).toNat = (xs.map BitVec.toNat).sum % 2 ^ 32) ∧
  (∀ xs ys : List Word, xs.Perm ys → add32 xs = add32 ys) ∧
  (∀ xs ys zs : List Word, add32 (xs ++ ys ++ zs) = add32 (xs ++ [add32 ys] ++ zs)) ∧
  (∀ x y : Word, add32 [x, y] = x + y)

/-- R111, R112: bit `i` of the rotation is bit `(i + n) mod 32`; the shift is the floor of `x / 2^n`. -/
def Obligations.RotateIsCircularAndShiftIsLogical : Prop :=
  (∀ (x : Word) (n i : Nat), 0 < n → n < 32 → i < 32 → (rotr x n).getLsbD i = x.getLsbD ((i + n) % 32)) ∧
  (∀ (x : Word) (n : Nat), 0 < n → n < 32 → (shr x n).toNat = x.toNat / 2 ^ n)

/-- R119, R120: `ch` selects bit by bit; `maj` is the majority bit by bit, and symmetric. -/
def Obligations.ChSelectsAndMajVotes : Prop :=
  (∀ (e f g : Word) (i : Nat), i < 32 →
    (ch e f g).getLsbD i = if e.getLsbD i then f.getLsbD i else g.getLsbD i) ∧
  (∀ (a b c : Word) (i : Nat), i < 32 →
    (maj a b c).getLsbD i = decide (2 ≤ (a.getLsbD i).toNat + (b.getLsbD i).toNat + (c.getLsbD i).toNat)) ∧
  (∀ a b c : Word, maj a b c = maj b a c ∧ maj a b c = maj a c b)

/-- R26, R27: the tables are the first 32 bits of the fractional parts of the square roots of the first eight primes,
and of the cube roots of the first 64. -/
def Obligations.TablesAreFractionalPartsOfRoots : Prop :=
  (∀ (i : Nat) (hi : i < 8), ∃ p, (primesBelow 20)[i]? = some p ∧
    ∃ r, r ^ 2 ≤ p * 2 ^ 64 ∧ p * 2 ^ 64 < (r + 1) ^ 2 ∧ IV[i].toNat = r % 2 ^ 32) ∧
  (∀ (i : Nat) (hi : i < 64), ∃ p, (primesBelow 312)[i]? = some p ∧
    ∃ r, r ^ 3 ≤ p * 2 ^ 96 ∧ p * 2 ^ 96 < (r + 1) ^ 3 ∧ K[i].toNat = r % 2 ^ 32)

/-- R162: the eight assignments of the source, executed left to right, give the round of R161. -/
def Obligations.SequentialAssignmentsGiveTheRound : Prop :=
  ∀ (v v1 v2 v3 v4 v5 v6 v7 v8 : Working) (k w : Word),
    v1 = { v with h := v.g } → v2 = { v1 with g := v1.f } → v3 = { v2 with f := v2.e } →
    v4 = { v3 with e := add32 [v3.d, temp1 v k w] } → v5 = { v4 with d := v4.c } → v6 = { v5 with c := v5.b } →
    v7 = { v6 with b := v6.a } → v8 = { v7 with a := add32 [temp1 v k w, temp2 v] } → v8 = roundFn v k w

/-- R150, R151: `expand(B)` is the parse of the block followed by the recurrence at every index of [16,63]. -/
def Obligations.ExpansionSatisfiesTheRecurrence : Prop :=
  ∀ byte : Nat → Byte,
    (∀ i (hi : i < 64), i < 16 →
      (expandBlock byte)[i] = be32 (byte (4 * i)) (byte (4 * i + 1)) (byte (4 * i + 2)) (byte (4 * i + 3))) ∧
    (∀ i (hi : i < 64), 16 ≤ i →
      (expandBlock byte)[i] = add32 [(expandBlock byte)[i - 16]'(by omega), s0 ((expandBlock byte)[i - 15]'(by omega)),
        (expandBlock byte)[i - 7]'(by omega), s1 ((expandBlock byte)[i - 2]'(by omega))])

/-! ## Blocks and messages -/

/-- R165: from an accepted `NEXT`, exactly 113 engine steps later, the block is folded, whatever was left in `W` and
`a..h`; nothing else of the engine has changed. -/
def Obligations.BlockIsFoldedAfter113Steps : Prop :=
  ∀ (s : State) (d : Word) (rest : List Command), Inv s → s.SEQ = .idle → TakesBlocks s.PHASE →
    s.BV = 0xFFFFFFFFFFFFFFFF → s.schedule = [] → s.pending = ⟨0x4000, d⟩ :: rest →
    (∀ c, rest.head? = some c → c.cmd ≠ 0x9000) →
    ∃ (v : Working), Runs (1 + 113) s [⟨0, 0⟩]
      { s with
        H := blockFn s.H s.BLK.byte
        W := expandBlock s.BLK.byte
        v := v
        BV := 0
        PHASE := .processing
        SEQ := .idle
        t := 0
        pending := rest
        out := none }

/-- R166: the blocks of a list, each written and consumed in turn, chain the running state. -/
def Obligations.BlocksChainTheRunningState : Prop :=
  ∀ (s : State) (blocks : List (List Byte)) (rest : List Command), Inv s → s.SEQ = .idle → TakesBlocks s.PHASE →
    s.schedule = [] → s.pending = blocks.flatMap blockCommands ++ rest →
    (∀ B ∈ blocks, B.length = 64) → blocks ≠ [] → (∀ c, rest.head? = some c → c.cmd ≠ 0x9000) →
    ∃ s', Runs (130 * blocks.length) s (List.replicate (17 * blocks.length) ⟨0, 0⟩) s' ∧
      s'.H = chain s.H blocks ∧ s'.PHASE = .processing ∧ s'.SEQ = .idle ∧ s'.pending = rest ∧ s'.schedule = []

/-- R181, R182: the padding of a message. -/
def Obligations.PaddingIsTheLeastWholeNumberOfBlocks : Prop :=
  ∀ m : List Byte, m.length < 2 ^ 61 →
    (pad m).take m.length = m ∧ (pad m)[m.length]? = some 0x80 ∧
    (∀ j, m.length < j → j < (pad m).length - 8 → (pad m)[j]? = some 0) ∧
    fromBytes ((pad m).drop ((pad m).length - 8)) = 8 * m.length ∧
    (pad m).length % 64 = 0 ∧ m.length + 9 ≤ (pad m).length ∧
    (∀ k, m.length + 9 ≤ 64 * k → (pad m).length ≤ 64 * k) ∧
    (pad m).length = 64 * ((m.length + 8) / 64 + 1) ∧
    (∀ k, m.length = 64 * k → (pad m).length / 64 = k + 1)

/-- R183: a message of 2^61 bytes or more is refused before any command is issued; every other is not. -/
def Obligations.OverlongMessagesIssueNoCommand : Prop :=
  ∀ m : List Byte,
    (2 ^ 61 ≤ m.length → hashPlan m = .failed .lengthOverflow) ∧
    (m.length < 2 ^ 61 → hashPlan m = .issue (hashCommands m) ∧
      (hashCommands m).length = 1 + 17 * ((m.length + 8) / 64 + 1) + 1 + 8)

/-- R184, R185: from every state of a run, in any phase and even while an abandoned block is processed, the commands of
`HASH(m)` all respond `OK` and the words read are the digest `assemble(S_n)` of `m`. -/
def Obligations.HashProcedureReturnsTheDigest : Prop :=
  ∀ (s : State) (m : List Byte), Inv s → m.length < 2 ^ 61 → s.schedule = [] → s.pending = hashCommands m →
    ∃ (s' : State) (ds : List Word),
      Runs (remaining s + 130 * ((m.length + 8) / 64 + 1) + 10) s
        (List.replicate (17 * ((m.length + 8) / 64 + 1) + 2) ⟨0, 0⟩ ++ ds.map fun d => ⟨0, d⟩) s' ∧
      digestOfWords ds = digest m ∧ ds.length = 8 ∧ s'.PHASE = .finalized ∧ s'.pending = []

/-! ## Pseudo-instructions -/

/-- R101: `WAIT` ends with the first `RDS` that falls after the last engine step left, and not before; every earlier
answer has `s[2] = 1` and its own has `s[2] = 0`; it has issued one `RDS` for each answer. It ends whenever the engine has
time for its steps. `gaps`, how many engine steps come before each `RDS`, is the host's and the clock's (R73; log entry
15). -/
def Obligations.WaitEndsAtTheFirstIdlePoll : Prop :=
  ∀ (s : State) (gaps : List Nat), Inv s →
    (∀ (s' : State) (answers : List Word), wait gaps s = .done s' answers →
      (∃ before last, answers = before ++ [last] ∧ last.getLsbD 2 = false ∧ ∀ a ∈ before, a.getLsbD 2 = true) ∧
      waitCommands answers = List.replicate answers.length ⟨0x9000, 0⟩ ∧
      remaining s ≤ (gaps.take answers.length).sum ∧
      (∀ k, 0 < k → k < answers.length → (gaps.take k).sum < remaining s) ∧
      s'.SEQ = .idle ∧ (s.SEQ ≠ .idle → s'.PHASE = .processing) ∧ s'.pending = s.pending ∧ s'.schedule = s.schedule) ∧
    (gaps ≠ [] → remaining s ≤ gaps.sum → ∃ s' answers, wait gaps s = .done s' answers)

/-- R101, R173: from an idle engine in `FINALIZED`, `RDDIGEST` puts the digest together from its 8 reads and `RDHEX` the
string of its hexadecimal digits from its 64, every command responds `OK`, and nothing but the port changes. The host's
list and the schedule are the model's own (log entries 1 and 2). -/
def Obligations.ReadSequencesGiveDigestAndHex : Prop :=
  ∀ (s : State) (rest : List Command), s.PHASE = .finalized → s.SEQ = .idle → s.schedule = [] →
    (s.pending = rdDigest ++ rest → ∃ (ds : List Word) (o : Option Response),
      Runs 8 s (ds.map fun d => ⟨0, d⟩) { s with pending := rest, out := o } ∧ digestOfWords ds = assemble s.H) ∧
    (s.pending = rdHex ++ rest → ∃ (cs : List Word) (o : Option Response),
      Runs 64 s (cs.map fun c => ⟨0, c⟩) { s with pending := rest, out := o } ∧
        hexOfWords cs = hexString (assemble s.H) ∧ ∀ c ∈ cs, c.toNat < 256)
end

