-- ==== Sys2Proof/Laws/Memory.lean ====
section
/-! SUPPORT. The block buffer: what a read after a write gives, and that every write keeps the canonical form. -/

namespace Sys2Proof.Machine

@[simp] theorem Memory.read_nil (a : Nat) : Memory.read [] a = none := rfl

/-- A byte just written reads as written. -/
@[simp] theorem Memory.read_write_same (m : Memory) (a : Nat) (b : Byte) : (Memory.write m a b).read a = some b := by
  induction m with
  | nil => simp [Memory.write, Memory.read]
  | cons c rest ih =>
    unfold Memory.write
    split
    · simp [Memory.read]
    · split
      · simp [Memory.read]
      · rename_i _ hne
        simp [Memory.read, Ne.symm hne, ih]

/-- A write leaves every other byte alone. -/
theorem Memory.read_write_other (m : Memory) {a a' : Nat} (b : Byte) (h : a' ≠ a) :
    (Memory.write m a b).read a' = m.read a' := by
  induction m with
  | nil => simp [Memory.write, Memory.read, h.symm]
  | cons c rest ih =>
    unfold Memory.write
    split
    · simp [Memory.read, h.symm]
    · split
      · rename_i _ he
        simp [Memory.read, h.symm, ← he]
      · simp [Memory.read, ih]

/-- What a write does to every read. -/
theorem Memory.read_write (m : Memory) (a a' : Nat) (b : Byte) :
    (Memory.write m a b).read a' = if a' = a then some b else m.read a' := by
  split
  · subst a'; simp
  · exact Memory.read_write_other m b ‹_›

/-- The cells of a memory after a write are the old ones and the one written. -/
theorem Memory.mem_write {m : Memory} {a : Nat} {b : Byte} {c : Host.Cell} (h : c ∈ Memory.write m a b) :
    c = (a, b) ∨ c ∈ m := by
  induction m with
  | nil => simpa [Memory.write] using h
  | cons d rest ih =>
    unfold Memory.write at h
    split at h
    · simpa using h
    · split at h
      · rcases List.mem_cons.1 h with h | h
        · exact .inl h
        · exact .inr (List.mem_cons_of_mem _ h)
      · rcases List.mem_cons.1 h with h | h
        · exact .inr (h ▸ List.mem_cons_self)
        · exact (ih h).imp_right (List.mem_cons_of_mem _)

/-- Every write to an address of `BLK` keeps the canonical form. -/
theorem Memory.write_wf {m : Memory} {a : Nat} (b : Byte) (ha : a < 64) (h : m.wf) : (Memory.write m a b).wf := by
  refine ⟨?_, fun c hc => ?_⟩
  · replace h := h.1
    induction m with
    | nil => simp [Memory.write]
    | cons d rest ih =>
      obtain ⟨hd, hrest⟩ := List.pairwise_cons.1 h
      unfold Memory.write
      split
      · rename_i hlt
        refine List.pairwise_cons.2 ⟨fun c hc => ?_, h⟩
        rcases List.mem_cons.1 hc with rfl | hc
        · exact hlt
        · exact Nat.lt_trans hlt (hd c hc)
      · split
        · rename_i _ he
          exact List.pairwise_cons.2 ⟨fun c hc => he ▸ hd c hc, hrest⟩
        · rename_i h1 h2
          refine List.pairwise_cons.2 ⟨fun c hc => ?_, ih hrest⟩
          rcases Memory.mem_write hc with rfl | hc
          · exact Nat.lt_of_le_of_ne (Nat.not_lt.1 h1) (Ne.symm h2)
          · exact hd c hc
  · rcases Memory.mem_write hc with rfl | hc
    · exact ha
    · exact h.2 c hc

theorem Memory.reset_wf : State.reset.BLK.wf := by decide

theorem State.writeByte_wf (s : State) (A : Addr) (b : Byte) (h : s.BLK.wf) : (s.writeByte A b).BLK.wf :=
  Memory.write_wf b A.isLt h

/-- A word write at an aligned address stays inside `BLK` and keeps the canonical form. -/
theorem State.writeWord_wf (s : State) (A : Addr) (v : Word) (hA : aligned A = true) (h : s.BLK.wf) :
    (s.writeWord A v).BLK.wf := by
  have hlt := A.isLt
  have h4 : A.toNat % 4 = 0 := by simpa [aligned] using hA
  exact Memory.write_wf _ (by omega) (Memory.write_wf _ (by omega) (Memory.write_wf _ (by omega)
    (Memory.write_wf _ (by omega) h)))

/-- Every byte holds a value exactly when every read of the block gives one. -/
theorem Memory.full_iff (m : Memory) : m.full = true ↔ ∀ a, a < 64 → (m.read a).isSome = true := by
  simp [Memory.full]

theorem Memory.byte_eq {m : Memory} {a : Nat} {b : Byte} (h : m.read a = some b) : m.byte a = b := by
  simp [Memory.byte, h]

end Sys2Proof.Machine
end

