-- ==== Sys2Proof/Laws/State.lean ====
section
/-! SUPPORT. What each update of the state does to each field: one lemma per field, so that no later proof unfolds a
record update. -/

namespace Sys2Proof.Machine

section respond
variable (s : State) (data : Word)

@[simp] theorem State.respond_H : (s.respond data).H = s.H := rfl
@[simp] theorem State.respond_v : (s.respond data).v = s.v := rfl
@[simp] theorem State.respond_W : (s.respond data).W = s.W := rfl
@[simp] theorem State.respond_BLK : (s.respond data).BLK = s.BLK := rfl
@[simp] theorem State.respond_BV : (s.respond data).BV = s.BV := rfl
@[simp] theorem State.respond_PHASE : (s.respond data).PHASE = s.PHASE := rfl
@[simp] theorem State.respond_SEQ : (s.respond data).SEQ = s.SEQ := rfl
@[simp] theorem State.respond_t : (s.respond data).t = s.t := rfl
@[simp] theorem State.respond_ERR : (s.respond data).ERR = s.ERR := rfl
@[simp] theorem State.respond_CAUSE : (s.respond data).CAUSE = s.CAUSE := rfl
@[simp] theorem State.respond_pending : (s.respond data).pending = s.pending := rfl
@[simp] theorem State.respond_schedule : (s.respond data).schedule = s.schedule := rfl
@[simp] theorem State.respond_out : (s.respond data).out = some ⟨0, data⟩ := rfl

end respond

section raise
variable (s : State) (c : Cause)

@[simp] theorem State.raise_H : (s.raise c).H = s.H := rfl
@[simp] theorem State.raise_v : (s.raise c).v = s.v := rfl
@[simp] theorem State.raise_W : (s.raise c).W = s.W := rfl
@[simp] theorem State.raise_BLK : (s.raise c).BLK = s.BLK := rfl
@[simp] theorem State.raise_BV : (s.raise c).BV = s.BV := rfl
@[simp] theorem State.raise_PHASE : (s.raise c).PHASE = s.PHASE := rfl
@[simp] theorem State.raise_SEQ : (s.raise c).SEQ = s.SEQ := rfl
@[simp] theorem State.raise_t : (s.raise c).t = s.t := rfl
@[simp] theorem State.raise_ERR : (s.raise c).ERR = true := rfl
@[simp] theorem State.raise_CAUSE : (s.raise c).CAUSE = if s.ERR then s.CAUSE else c.code := rfl
@[simp] theorem State.raise_pending : (s.raise c).pending = s.pending := rfl
@[simp] theorem State.raise_schedule : (s.raise c).schedule = s.schedule := rfl
@[simp] theorem State.raise_out : (s.raise c).out = some ⟨c.code, 0⟩ := rfl

end raise

section writeByte
variable (s : State) (A : Addr) (b : Byte)

@[simp] theorem State.writeByte_H : (s.writeByte A b).H = s.H := rfl
@[simp] theorem State.writeByte_v : (s.writeByte A b).v = s.v := rfl
@[simp] theorem State.writeByte_W : (s.writeByte A b).W = s.W := rfl
@[simp] theorem State.writeByte_BLK : (s.writeByte A b).BLK = s.BLK.write A.toNat b := rfl
@[simp] theorem State.writeByte_BV : (s.writeByte A b).BV = s.BV ||| (1#64 <<< A.toNat) := rfl
@[simp] theorem State.writeByte_PHASE : (s.writeByte A b).PHASE = s.PHASE := rfl
@[simp] theorem State.writeByte_SEQ : (s.writeByte A b).SEQ = s.SEQ := rfl
@[simp] theorem State.writeByte_t : (s.writeByte A b).t = s.t := rfl
@[simp] theorem State.writeByte_ERR : (s.writeByte A b).ERR = s.ERR := rfl
@[simp] theorem State.writeByte_CAUSE : (s.writeByte A b).CAUSE = s.CAUSE := rfl
@[simp] theorem State.writeByte_pending : (s.writeByte A b).pending = s.pending := rfl
@[simp] theorem State.writeByte_schedule : (s.writeByte A b).schedule = s.schedule := rfl
@[simp] theorem State.writeByte_out : (s.writeByte A b).out = s.out := rfl

end writeByte

section writeWord
variable (s : State) (A : Addr) (v : Word)

@[simp] theorem State.writeWord_H : (s.writeWord A v).H = s.H := rfl
@[simp] theorem State.writeWord_v : (s.writeWord A v).v = s.v := rfl
@[simp] theorem State.writeWord_W : (s.writeWord A v).W = s.W := rfl
@[simp] theorem State.writeWord_BLK :
    (s.writeWord A v).BLK = (((s.BLK.write A.toNat (byteOf 0 v)).write (A.toNat + 1) (byteOf 1 v)).write (A.toNat + 2)
      (byteOf 2 v)).write (A.toNat + 3) (byteOf 3 v) :=
  rfl
@[simp] theorem State.writeWord_BV : (s.writeWord A v).BV = s.BV ||| (0b1111#64 <<< A.toNat) := rfl
@[simp] theorem State.writeWord_PHASE : (s.writeWord A v).PHASE = s.PHASE := rfl
@[simp] theorem State.writeWord_SEQ : (s.writeWord A v).SEQ = s.SEQ := rfl
@[simp] theorem State.writeWord_t : (s.writeWord A v).t = s.t := rfl
@[simp] theorem State.writeWord_ERR : (s.writeWord A v).ERR = s.ERR := rfl
@[simp] theorem State.writeWord_CAUSE : (s.writeWord A v).CAUSE = s.CAUSE := rfl
@[simp] theorem State.writeWord_pending : (s.writeWord A v).pending = s.pending := rfl
@[simp] theorem State.writeWord_schedule : (s.writeWord A v).schedule = s.schedule := rfl
@[simp] theorem State.writeWord_out : (s.writeWord A v).out = s.out := rfl

end writeWord

section takeBlock
variable (s : State)

@[simp] theorem State.takeBlock_H : (s.takeBlock).H = s.H := rfl
@[simp] theorem State.takeBlock_v : (s.takeBlock).v = Working.ofH s.H := rfl
@[simp] theorem State.takeBlock_W : (s.takeBlock).W = parseInto s.W s.BLK.byte := rfl
@[simp] theorem State.takeBlock_BLK : (s.takeBlock).BLK = s.BLK := rfl
@[simp] theorem State.takeBlock_BV : (s.takeBlock).BV = 0 := rfl
@[simp] theorem State.takeBlock_PHASE : (s.takeBlock).PHASE = s.PHASE := rfl
@[simp] theorem State.takeBlock_SEQ : (s.takeBlock).SEQ = .expand := rfl
@[simp] theorem State.takeBlock_t : (s.takeBlock).t = 16 := rfl
@[simp] theorem State.takeBlock_ERR : (s.takeBlock).ERR = s.ERR := rfl
@[simp] theorem State.takeBlock_CAUSE : (s.takeBlock).CAUSE = s.CAUSE := rfl
@[simp] theorem State.takeBlock_pending : (s.takeBlock).pending = s.pending := rfl
@[simp] theorem State.takeBlock_schedule : (s.takeBlock).schedule = s.schedule := rfl
@[simp] theorem State.takeBlock_out : (s.takeBlock).out = s.out := rfl

end takeBlock

section beginStep
variable (s : State)

@[simp] theorem State.beginStep_H : (s.beginStep).H = s.H := rfl
@[simp] theorem State.beginStep_v : (s.beginStep).v = s.v := rfl
@[simp] theorem State.beginStep_W : (s.beginStep).W = s.W := rfl
@[simp] theorem State.beginStep_BLK : (s.beginStep).BLK = s.BLK := rfl
@[simp] theorem State.beginStep_BV : (s.beginStep).BV = s.BV := rfl
@[simp] theorem State.beginStep_PHASE : (s.beginStep).PHASE = s.PHASE := rfl
@[simp] theorem State.beginStep_SEQ : (s.beginStep).SEQ = s.SEQ := rfl
@[simp] theorem State.beginStep_t : (s.beginStep).t = s.t := rfl
@[simp] theorem State.beginStep_ERR : (s.beginStep).ERR = s.ERR := rfl
@[simp] theorem State.beginStep_CAUSE : (s.beginStep).CAUSE = s.CAUSE := rfl
@[simp] theorem State.beginStep_pending : (s.beginStep).pending = s.pending := rfl
@[simp] theorem State.beginStep_schedule : (s.beginStep).schedule = s.schedule.tail := rfl
@[simp] theorem State.beginStep_out : (s.beginStep).out = none := rfl

end beginStep

section resetEvent
variable (s : State)

@[simp] theorem State.resetEvent_H : (s.resetEvent).H = Vector.replicate 8 0 := rfl
@[simp] theorem State.resetEvent_v : (s.resetEvent).v = ⟨0, 0, 0, 0, 0, 0, 0, 0⟩ := rfl
@[simp] theorem State.resetEvent_W : (s.resetEvent).W = Vector.replicate 64 0 := rfl
@[simp] theorem State.resetEvent_BLK : (s.resetEvent).BLK = [] := rfl
@[simp] theorem State.resetEvent_BV : (s.resetEvent).BV = 0 := rfl
@[simp] theorem State.resetEvent_PHASE : (s.resetEvent).PHASE = .uninit := rfl
@[simp] theorem State.resetEvent_SEQ : (s.resetEvent).SEQ = .idle := rfl
@[simp] theorem State.resetEvent_t : (s.resetEvent).t = 0 := rfl
@[simp] theorem State.resetEvent_ERR : (s.resetEvent).ERR = false := rfl
@[simp] theorem State.resetEvent_CAUSE : (s.resetEvent).CAUSE = 0 := rfl
@[simp] theorem State.resetEvent_pending : (s.resetEvent).pending = s.pending := rfl
@[simp] theorem State.resetEvent_schedule : (s.resetEvent).schedule = s.schedule := rfl
@[simp] theorem State.resetEvent_out : (s.resetEvent).out = none := rfl

end resetEvent

section advance
variable (s : State) (after : Seq)

@[simp] theorem State.advance_H : (s.advance after).H = s.H := by unfold State.advance; split <;> rfl
@[simp] theorem State.advance_v : (s.advance after).v = s.v := by unfold State.advance; split <;> rfl
@[simp] theorem State.advance_W : (s.advance after).W = s.W := by unfold State.advance; split <;> rfl
@[simp] theorem State.advance_BLK : (s.advance after).BLK = s.BLK := by unfold State.advance; split <;> rfl
@[simp] theorem State.advance_BV : (s.advance after).BV = s.BV := by unfold State.advance; split <;> rfl
@[simp] theorem State.advance_PHASE : (s.advance after).PHASE = s.PHASE := by unfold State.advance; split <;> rfl
@[simp] theorem State.advance_ERR : (s.advance after).ERR = s.ERR := by unfold State.advance; split <;> rfl
@[simp] theorem State.advance_CAUSE : (s.advance after).CAUSE = s.CAUSE := by unfold State.advance; split <;> rfl
@[simp] theorem State.advance_pending : (s.advance after).pending = s.pending := by unfold State.advance; split <;> rfl
@[simp] theorem State.advance_schedule : (s.advance after).schedule = s.schedule := by unfold State.advance; split <;> rfl
@[simp] theorem State.advance_out : (s.advance after).out = s.out := by unfold State.advance; split <;> rfl

/-- Before the last index the sequencer keeps its state. -/
theorem State.advance_SEQ : (s.advance after).SEQ = if s.t = 63 then after else s.SEQ := by
  unfold State.advance; split <;> rfl

/-- The counter goes up by one and starts again at 0 with the next state of the sequencer. -/
theorem State.advance_t : (s.advance after).t = if s.t = 63 then 0 else s.t + 1 := by
  unfold State.advance; split <;> rfl

end advance

end Sys2Proof.Machine
end

