-- ==== Sys2Proof/Laws/Words.lean ====
section
/-! SUPPORT. Word arithmetic in the library's own terms, and the bytes of a word. -/

namespace Sys2Proof.Machine

theorem add32_nil : add32 [] = 0 := rfl

/-- The sum may be reduced after each addition. -/
theorem add32_cons (x : Word) (xs : List Word) : add32 (x :: xs) = x + add32 xs := by
  simp [add32, BitVec.ofNat_add]

theorem add32_pair (x y : Word) : add32 [x, y] = x + y := by
  simp [add32_cons, add32_nil]

theorem rotr_eq_rotateRight (x : Word) (n : Nat) (hn : n < 32) : rotr x n = x.rotateRight n := by
  simp [rotr, BitVec.rotateRight, BitVec.rotateRightAux, Nat.mod_eq_of_lt hn]

theorem getLsbD_byteOf (k i : Nat) (x : Word) :
    (byteOf k x).getLsbD i = (decide (i < 8) && x.getLsbD (24 - 8 * k + i)) := by
  simp [byteOf]

/-- A word is made of its four bytes, the most significant first. -/
theorem be32_byteOf (x : Word) : be32 (byteOf 0 x) (byteOf 1 x) (byteOf 2 x) (byteOf 3 x) = x := by
  apply BitVec.eq_of_getLsbD_eq
  intro i hi
  simp only [be32, BitVec.getLsbD_append, getLsbD_byteOf]
  split
  · simp [*]
  · split
    · have : i - 8 < 8 := by omega
      simp [this, show 8 + (i - 8) = i by omega]
    · split
      · have : i - 8 - 8 < 8 := by omega
        simp [this, show 16 + (i - 8 - 8) = i by omega]
      · have : i - 8 - 8 - 8 < 8 := by omega
        simp [this, show 24 + (i - 8 - 8 - 8) = i by omega]

/-- A bit of `be32`: counted from the least significant end, byte 3 comes first. -/
theorem getLsbD_be32 (b0 b1 b2 b3 : Byte) (i : Nat) :
    (be32 b0 b1 b2 b3).getLsbD i =
      if i < 8 then b3.getLsbD i else if i < 16 then b2.getLsbD (i - 8)
      else if i < 24 then b1.getLsbD (i - 16) else b0.getLsbD (i - 24) := by
  simp only [be32, BitVec.getLsbD_append, Nat.sub_sub]
  by_cases h1 : i < 8
  · simp only [h1, if_true]
  · by_cases h2 : i < 16
    · simp only [h1, h2, show i - 8 < 8 by omega, if_true, if_false]
    · by_cases h3 : i < 24
      · simp only [h1, h2, h3, show ¬ i - 8 < 8 by omega, show i - (8 + 8) < 8 by omega, if_true, if_false]
      · simp only [h1, h2, h3, show ¬ i - 8 < 8 by omega, show ¬ i - (8 + 8) < 8 by omega, if_false]

theorem byteOf_be32_zero (b0 b1 b2 b3 : Byte) : byteOf 0 (be32 b0 b1 b2 b3) = b0 := by
  apply BitVec.eq_of_getLsbD_eq
  intro i hi
  rw [getLsbD_byteOf, getLsbD_be32]
  simp only [hi, show ¬ 24 - 8 * 0 + i < 8 by omega, show ¬ 24 - 8 * 0 + i < 16 by omega, show ¬ 24 - 8 * 0 + i < 24 by omega, show 24 - 8 * 0 + i - 24 = i by omega, if_false,
    decide_true, Bool.true_and]

theorem byteOf_be32_one (b0 b1 b2 b3 : Byte) : byteOf 1 (be32 b0 b1 b2 b3) = b1 := by
  apply BitVec.eq_of_getLsbD_eq
  intro i hi
  rw [getLsbD_byteOf, getLsbD_be32]
  simp only [hi, show ¬ 24 - 8 * 1 + i < 8 by omega, show ¬ 24 - 8 * 1 + i < 16 by omega, show 24 - 8 * 1 + i < 24 by omega, show 24 - 8 * 1 + i - 16 = i by omega, if_true, if_false,
    decide_true, Bool.true_and]

theorem byteOf_be32_two (b0 b1 b2 b3 : Byte) : byteOf 2 (be32 b0 b1 b2 b3) = b2 := by
  apply BitVec.eq_of_getLsbD_eq
  intro i hi
  rw [getLsbD_byteOf, getLsbD_be32]
  simp only [hi, show ¬ 24 - 8 * 2 + i < 8 by omega, show 24 - 8 * 2 + i < 16 by omega, show 24 - 8 * 2 + i - 8 = i by omega, if_true, if_false,
    decide_true, Bool.true_and]

theorem byteOf_be32_three (b0 b1 b2 b3 : Byte) : byteOf 3 (be32 b0 b1 b2 b3) = b3 := by
  apply BitVec.eq_of_getLsbD_eq
  intro i hi
  rw [getLsbD_byteOf, getLsbD_be32]
  simp only [hi, show 24 - 8 * 3 + i = i by omega, if_true,
    decide_true, Bool.true_and]

end Sys2Proof.Machine
end

