-- ==== Sys2Proof/Laws/Ops.lean ====
section
/-! SUPPORT. What each shared operation can do, said once. -/

namespace Sys2Proof.Machine

/-- An accepted command either raises the first fault of R131 and does nothing else, or has its own effect. -/
theorem checked_cases (i : Instr) (s : State) (effect : Result) :
    (∃ c, firstFault i s = some c ∧ checked i s effect = .next (s.raise c)) ∨
    (firstFault i s = none ∧ checked i s effect = effect) := by
  unfold checked
  cases firstFault i s with
  | none => exact .inr ⟨rfl, rfl⟩
  | some c => exact .inl ⟨c, rfl, rfl⟩

/-- If a checked command answers a next state, it is the fault's or the effect's. -/
theorem checked_next {i : Instr} {s s' : State} {effect : Result} (h : checked i s effect = .next s') :
    (∃ c, firstFault i s = some c ∧ s' = s.raise c) ∨ (firstFault i s = none ∧ effect = .next s') := by
  rcases checked_cases i s effect with ⟨c, hc, he⟩ | ⟨hn, he⟩
  · exact .inl ⟨c, hc, by simpa [eq_comm] using he.symm.trans h⟩
  · exact .inr ⟨hn, he.symm.trans h⟩

/-- When an instruction passes every check of R131. -/
theorem firstFault_none_iff (i : Instr) (s : State) :
    firstFault i s = none ↔
      i.wf = true ∧ misaligned i = false ∧ permitted i s.PHASE = true ∧
        (needsBlock i = true → s.blockComplete = true) := by
  unfold firstFault
  cases i.wf <;> cases misaligned i <;> cases permitted i s.PHASE <;> cases needsBlock i <;> cases s.blockComplete <;>
    simp

@[simp] theorem firstFault_init (s : State) : firstFault .init s = none := rfl
@[simp] theorem firstFault_rds (s : State) : firstFault .rds s = none := rfl
@[simp] theorem firstFault_expand (s : State) : firstFault .expand s = none := rfl
@[simp] theorem firstFault_round (s : State) : firstFault .round s = none := rfl
@[simp] theorem firstFault_fold (s : State) : firstFault .fold s = none := rfl

/-- Every cause has a code in 1..4 (R200). -/
theorem Cause.code_range (c : Cause) : 1 ≤ c.code.toNat ∧ c.code.toNat ≤ 4 := by
  cases c <;> decide

/-- A word of `DIG` at a multiple of 4 is a word of `H` (R64). -/
theorem digWord_aligned (H : Vector Word 8) (A : Fin 32) (hA : A.val % 4 = 0) :
    digWord H A = H[A.val / 4]'(by omega) := by
  have h1 : (A + 1).val = A.val + 1 := by rw [Fin.val_add]; simp; omega
  have h2 : (A + 2).val = A.val + 2 := by rw [Fin.val_add]; simp; omega
  have h3 : (A + 3).val = A.val + 3 := by rw [Fin.val_add]; simp; omega
  have q1 : (A + 1).val / 4 = A.val / 4 := by omega
  have q2 : (A + 2).val / 4 = A.val / 4 := by omega
  have q3 : (A + 3).val / 4 = A.val / 4 := by omega
  have r1 : (A + 1).val % 4 = 1 := by omega
  have r2 : (A + 2).val % 4 = 2 := by omega
  have r3 : (A + 3).val % 4 = 3 := by omega
  simp only [digWord, digByte, q1, q2, q3, r1, r2, r3, hA]
  exact be32_byteOf _

theorem parseInto_low (W : Vector Word 64) (byte : Nat → Byte) (i : Nat) (hi : i < 16) :
    (parseInto W byte)[i]'(by omega) = blockWord byte i := by
  simp [parseInto, hi]

theorem parseInto_high (W : Vector Word 64) (byte : Nat → Byte) (i : Nat) (hi : 16 ≤ i) (h : i < 64) :
    (parseInto W byte)[i] = W[i] := by
  simp [parseInto, show ¬ i < 16 by omega]

end Sys2Proof.Machine
end

