-- ==== Sys2Proof/Laws/Exec.lean ====
section
/-! SUPPORT. What an instruction can do when it answers a next state: one inversion for all of them. -/

namespace Sys2Proof.Machine

/-- The effect of an instruction whose checks passed, as a relation between the state before and the state after. -/
def Effect (i : Instr) (s s' : State) : Prop :=
  match i with
  | .init => s' = { s with H := IV, PHASE := .initialized, BV := 0 }.respond 0
  | .wrw A v => s' = (s.writeWord A v).respond 0
  | .wrb A b => s' = (s.writeByte A b).respond 0
  | .next => s.BLK.full = true ∧ s' = s.takeBlock.respond 0
  | .final => s' = { s with PHASE := .finalized }.respond 0
  | .rdw A => s' = s.respond (digWord s.H (digAddr A))
  | .rdb A => s' = s.respond ((digByte s.H (digAddr A)).setWidth 32)
  | .rdx A => s' = s.respond ((hexChar s.H A).setWidth 32)
  | .rds => s' = s.respond s.STATUS
  | .expand =>
    ∃ h : 16 ≤ s.t.val,
      s' = { s with W := s.W.set s.t.val (scheduleWord s.W s.t.val ⟨h, s.t.isLt⟩) }.advance .round
  | .round => s' = { s with v := roundFn s.v K[s.t] s.W[s.t] }.advance .fold
  | .fold => s' = { s with H := foldInto s.H s.v, PHASE := .processing, SEQ := .idle, t := 0 }

/-- If an instruction answers a next state, it raised the first fault of R131 or had its effect. -/
theorem exec_next {i : Instr} {s s' : State} (h : exec i s = .next s') :
    (∃ c, firstFault i s = some c ∧ s' = s.raise c) ∨ (firstFault i s = none ∧ Effect i s s') := by
  cases i with
  | expand =>
    refine .inr ⟨rfl, ?_⟩
    simp only [exec, execExpand] at h
    split at h
    · exact ⟨‹_›, by simpa [eq_comm] using h⟩
    · simp at h
  | init => exact .inr ⟨rfl, by simpa [exec, execInit, checked, Effect, eq_comm] using h⟩
  | rds => exact .inr ⟨rfl, by simpa [exec, execRds, checked, Effect, eq_comm] using h⟩
  | round => exact .inr ⟨rfl, by simpa [exec, execRound, Effect, eq_comm] using h⟩
  | fold => exact .inr ⟨rfl, by simpa [exec, execFold, Effect, eq_comm] using h⟩
  | next =>
    refine (checked_next h).imp_right (And.imp_right fun he => ?_)
    split at he
    · exact ⟨‹_›, by simpa [eq_comm] using he⟩
    · simp at he
  | _ => exact (checked_next h).imp_right (And.imp_right fun he => by simpa [Effect, eq_comm] using he)

/-- Below `t = 16` the model stops `EXPAND`; everywhere else it answers a next state. -/
theorem execExpand_next_iff (s : State) : (∃ s', exec .expand s = .next s') ↔ 16 ≤ s.t.val := by
  simp only [exec, execExpand]
  split <;> simp_all

end Sys2Proof.Machine
end

