-- ==== Sys2Proof/Laws/Host.lean ====
section
/-! SUPPORT. What the steps of `WAIT` do: one poll, and one gap with the poll after it. -/

namespace Sys2Proof.Machine

/-- A turn taken before the schedule's runs with the response lines cleared and leaves the schedule alone. -/
theorem takeTurn_eq (turn : Turn) (s : State) : takeTurn turn s = runTurn turn { s with out := none } := rfl

/-- A poll returns `STATUS` and changes the response lines only. -/
theorem pollStatus_eq (s : State) : pollStatus s = some ({ s with out := some ⟨0, s.STATUS⟩ }, s.STATUS) := rfl

/-- `s[2]` of a status word is `BUSY` (R36). -/
theorem STATUS_bit_two (s : State) : s.STATUS.getLsbD 2 = s.BUSY := by
  rw [State.STATUS, BitVec.getLsbD_setWidth, BitVec.getLsbD_append, BitVec.getLsbD_append]
  cases s.BUSY <;> rfl

/-- `WAIT` ends exactly on a status read in an idle engine. -/
theorem waitDone_STATUS (s : State) : waitDone s.STATUS = true ↔ s.SEQ = .idle := by
  rw [waitDone, STATUS_bit_two, State.BUSY]
  cases s.SEQ <;> decide

/-- What a gap and the poll after it do. -/
theorem wait_cons {n : Nat} {s s₁ : State} (gaps : List Nat) (h : engineTurns n s = .next s₁) :
    wait (n :: gaps) s =
      if s₁.SEQ = .idle then .done { s₁ with out := some ⟨0, s₁.STATUS⟩ } [s₁.STATUS]
      else (wait gaps { s₁ with out := some ⟨0, s₁.STATUS⟩ }).after s₁.STATUS := by
  simp only [wait, h, pollStatus_eq, waitDone_STATUS]

/-- `WAIT` issues no more after an answer with `s[2] = 0`. -/
theorem waitCommands_done {status : Word} (rest : List Word) (h : waitDone status = true) :
    waitCommands (status :: rest) = [transaction .rds] := by
  simp [waitCommands, h]

/-- `WAIT` goes on after an answer with `s[2] = 1`. -/
theorem waitCommands_busy {status : Word} (rest : List Word) (h : waitDone status = false) :
    waitCommands (status :: rest) = transaction .rds :: waitCommands rest := by
  rw [waitCommands]; simp [h]

end Sys2Proof.Machine
end

