-- ==== Sys2Proof/Laws/PerInstr.lean ====
section
/-! SUPPORT. One fact for every instruction: the code its encoder writes selects its row of the opcode table. -/

namespace Sys2Proof.Laws

/-- A well-formed instruction's code selects its own row by `match` and `mask` (R95, R102). -/
def TableRow.Statement (i : Instr) : Prop :=
  i.wf = true → selects (encode i) (tableRow i) = true

namespace TableRow

/-- Whatever the address, the mask `0xFFC0` leaves the operation of a command word. -/
theorem cmdWord_and_ffc0 : ∀ A : Addr, (cmdWord 2 A &&& 0xFFC0 = 0x2000) ∧ (cmdWord 3 A &&& 0xFFC0 = 0x3000) ∧
    (cmdWord 8 A &&& 0xFFC0 = 0x8000) := by
  decide

/-- With an address below 32 the mask `0xFFE0` leaves the operation of a command word. -/
theorem cmdWord_and_ffe0 : ∀ A : Addr, A.toNat < 32 →
    (cmdWord 6 A &&& 0xFFE0 = 0x6000) ∧ (cmdWord 7 A &&& 0xFFE0 = 0x7000) := by
  decide

theorem init : Statement .init := fun _ => rfl

theorem wrw (A : Addr) (v : Word) : Statement (.wrw A v) := fun _ => beq_iff_eq.2 (cmdWord_and_ffc0 A).1

theorem wrb (A : Addr) (b : Byte) : Statement (.wrb A b) := fun _ => beq_iff_eq.2 (cmdWord_and_ffc0 A).2.1

theorem next : Statement .next := fun _ => rfl

theorem final : Statement .final := fun _ => rfl

theorem rdw (A : Addr) : Statement (.rdw A) := fun h => beq_iff_eq.2 (cmdWord_and_ffe0 A (of_decide_eq_true h)).1

theorem rdb (A : Addr) : Statement (.rdb A) := fun h => beq_iff_eq.2 (cmdWord_and_ffe0 A (of_decide_eq_true h)).2

theorem rdx (A : Addr) : Statement (.rdx A) := fun _ => beq_iff_eq.2 (cmdWord_and_ffc0 A).2.2

theorem rds : Statement .rds := fun _ => rfl

theorem expand : Statement .expand := fun _ => rfl

theorem round : Statement .round := fun _ => rfl

theorem fold : Statement .fold := fun _ => rfl

end TableRow

end Sys2Proof.Laws
end

