-- ==== Sys2Proof/Laws/Step.lean ====
section
/-! SUPPORT. What one step can do: whose turn it is, and what it then is. -/

namespace Sys2Proof.Machine

/-- The ways one step can go. In each the step begins by clearing the response lines and taking its turn from the
schedule. -/
inductive StepCase (s s' : State) : Prop where
  /-- Nothing happens: the host presents nothing, its transaction is held, or the sequencer has no step. -/
  | nothing (why : (nextTurn s = .host ∧ s.pending = []) ∨
      (nextTurn s = .host ∧ ∃ c rest, s.pending = c :: rest ∧ cmdReady s.SEQ c.cmd = false) ∨
      (nextTurn s = .sequencer ∧ s.SEQ = .idle)) (eq : s' = s.beginStep)
  /-- The host's transaction is accepted. -/
  | command (c : Command) (rest : List Command) (turn : nextTurn s = .host) (pending : s.pending = c :: rest)
      (ready : cmdReady s.SEQ c.cmd = true) (eq : accept c { s.beginStep with pending := rest } = .next s')
  /-- The host issues an `RDS` beside the transaction it presents. -/
  | poll (turn : nextTurn s = .poll) (eq : exec .rds s.beginStep = .next s')
  | withdraw (turn : nextTurn s = .withdraw) (eq : s' = { s.beginStep with pending := s.pending.tail })
  | reset (turn : nextTurn s = .reset) (eq : s' = s.beginStep.resetEvent)
  /-- The sequencer takes the step its code selects. -/
  | engine (i : Instr) (turn : nextTurn s = .sequencer) (code : decodeSequencer s.SEQ.code = .legal i)
      (eq : exec i s.beginStep = .next s')

theorem step_next {s s' : State} (h : step s = .next s') : StepCase s s' := by
  unfold step at h
  cases ht : nextTurn s with
  | host =>
    replace h : hostTurn s.beginStep = .next s' := by rw [ht] at h; exact h
    unfold hostTurn at h
    split at h
    · exact .nothing (.inl ⟨ht, ‹_›⟩) (by simpa [eq_comm] using h)
    · rename_i c rest hp
      by_cases hr : cmdReady s.beginStep.SEQ c.cmd = true
      · rw [if_pos hr] at h
        exact .command c rest ht hp hr h
      · rw [if_neg hr] at h
        exact .nothing (.inr (.inl ⟨ht, c, rest, hp, by simpa using hr⟩)) (by simpa [eq_comm] using h)
  | poll => exact .poll ht (by rw [ht] at h; exact h)
  | withdraw => exact .withdraw ht (by simpa [ht, runTurn, eq_comm] using h)
  | reset => exact .reset ht (by simpa [ht, runTurn, eq_comm] using h)
  | sequencer =>
    replace h : sequencerTurn s.beginStep = .next s' := by rw [ht] at h; exact h
    unfold sequencerTurn at h
    split at h
    · exact .engine _ ht ‹_› h
    · rename_i why hw
      refine .nothing (.inr (.inr ⟨ht, ?_⟩)) (by simpa [eq_comm] using h)
      cases hs : s.SEQ <;> simp [hs, decodeSequencer, Seq.code] at hw ⊢

/-- An accepted transaction raises `IllegalCommand` or runs the instruction it decodes to (R131). -/
theorem accept_cases (c : Command) (s : State) :
    (∃ why, decodeCommand c.cmd c.wdata = .illegal why ∧ accept c s = .next (s.raise .illegalCommand)) ∨
    (∃ i, decodeCommand c.cmd c.wdata = .legal i ∧ accept c s = exec i s) := by
  unfold accept
  split
  · exact .inr ⟨_, ‹_›, rfl⟩
  · exact .inl ⟨_, ‹_›, rfl⟩

/-- The sequencer's code selects `EXPAND`, `ROUND` or `FOLD`, and nothing in `IDLE` (R102). -/
theorem decodeSequencer_code (q : Seq) (i : Instr) :
    decodeSequencer q.code = .legal i ↔
      (q = .expand ∧ i = .expand) ∨ (q = .round ∧ i = .round) ∨ (q = .fold ∧ i = .fold) := by
  cases q <;> simp [Seq.code, decodeSequencer, eq_comm]

theorem cmdReady_iff (q : Seq) (c : CmdWord) : cmdReady q c = true ↔ q = .idle ∨ c = rdsWord := by
  simp [cmdReady]

/-- A command word decodes to no engine step: the host cannot issue one (R102). -/
theorem decodeCommand_not_engine {c : CmdWord} {d : Word} {i : Instr} (h : decodeCommand c d = .legal i) :
    i ≠ .expand ∧ i ≠ .round ∧ i ≠ .fold := by
  unfold decodeCommand formatC formatDig at h
  (repeat' split at h) <;> simp_all <;> subst h <;> simp

end Sys2Proof.Machine
end

