-- ==== Sys2Proof/Tests/Slice0.lean ====
section
/-! SUPPORT. The model's own tests: words written out bit by bit from R95 and R102, one-step tests with the values the
spec prints, and for every statement with hypotheses a witness that meets them. -/

namespace Sys2Proof.Tests

open Sys2Proof.Machine

/-! ## States the tests start from -/

/-- The padded block of the message "abc" (R150's example): `61 62 63 80`, zeros, `18`. -/
def abcBlock : Memory :=
  [(0, 0x61), (1, 0x62), (2, 0x63), (3, 0x80)] ++ (List.range 59).map (fun a => (a + 4, 0)) ++ [(63, 0x18)]

/-- After `INIT`. -/
def opened : State := { State.reset with H := IV, PHASE := .initialized }

/-- After `INIT` and the writes of the block of "abc". -/
def loaded : State := { opened with BLK := abcBlock, BV := 0xFFFFFFFFFFFFFFFF }

/-- While the first block is processed. -/
def busy (q : Seq) (t : Fin 64) : State := { opened with BLK := abcBlock, SEQ := q, t := t }

/-- After `FINAL`, with the digest of "abc" (R163's example). -/
def closed : State :=
  { State.reset with
    H := #v[0xba7816bf, 0x8f01cfea, 0x414140de, 0x5dae2223, 0xb00361a3, 0x96177a9c, 0xb410ff61, 0xf20015ad]
    PHASE := .finalized }

/-- A step's result is a next state with the property. -/
def shows (r : Result) (p : State → Bool) : Bool :=
  match r with
  | .next s => p s
  | .fault _ => false
  | .refused _ => false

/-- The response a result shows. -/
def response (r : Result) : Option Response :=
  match r with
  | .next s => s.out
  | .fault _ => none
  | .refused _ => none

/-! ## Well-formedness -/

/-- R97: `RDW` at 32 and `RDB` at 40 have no encoding; the last address of `DIG` has one. -/
theorem test_wf_refuses_addresses_beyond_the_digest :
    Instr.wf (.rdw 32) = false ∧ Instr.wf (.rdb 40) = false ∧ Instr.wf (.rdb 31) = true := by decide

/-! ## Decoding: one word for every row -/

theorem test_decode_init : decodeCommand 0b0001_000000_000000 0xFFFFFFFF = .legal .init := by decide
theorem test_decode_wrw : decodeCommand 0b0010_000000_000100 0x61626380 = .legal (.wrw 4 0x61626380) := by decide
/-- R141: `WRB A, 0x1ff` writes `0xff`. -/
theorem test_decode_wrb : decodeCommand 0b0011_000000_111111 0x000001ff = .legal (.wrb 63 0xff) := by decide
theorem test_decode_next : decodeCommand 0b0100_000000_000000 0 = .legal .next := by decide
theorem test_decode_final : decodeCommand 0b0101_000000_000000 0 = .legal .final := by decide
theorem test_decode_rdw : decodeCommand 0b0110_000000_011100 0 = .legal (.rdw 28) := by decide
theorem test_decode_rdb : decodeCommand 0b0111_000000_011111 0 = .legal (.rdb 31) := by decide
theorem test_decode_rdx : decodeCommand 0b1000_000000_111111 0 = .legal (.rdx 63) := by decide
theorem test_decode_rds : decodeCommand 0b1001_000000_000000 0 = .legal .rds := by decide
theorem test_decode_expand : decodeSequencer 0b01 = .legal .expand := by decide
theorem test_decode_round : decodeSequencer 0b10 = .legal .round := by decide
theorem test_decode_fold : decodeSequencer 0b11 = .legal .fold := by decide
/-- R201's examples, and R102: the code 0 selects no step. -/
theorem test_decode_illegal :
    decodeCommand 0x0000 0 = .illegal .reservedOp ∧ decodeCommand 0x2040 0 = .illegal .zeroField ∧
    decodeCommand 0x6020 0 = .illegal .addrBeyondDigest ∧ decodeCommand 0x9001 0 = .illegal .addrNotZero ∧
    decodeSequencer 0 = .illegal .noStep := by decide
/-- The numbering of the opcode table: `WDATA` counts on from bit 16 of a command, and a row of `SEQ` has 2 bits. -/
theorem test_decode_table_words :
    decodeTableWord 16 0x1000 = some .init ∧ decodeTableWord 16 0x61626380_2004 = some (.wrw 4 0x61626380) ∧
    decodeTableWord 8 3 = some .fold ∧ decodeTableWord 8 0 = none ∧ decodeTableWord 16 0x6020 = none := by decide

/-! ## One step on a small state -/

/-- R133's example, run as the first instruction after reset. -/
theorem test_init_loads_iv :
    shows (step (State.reset.withFetchWord 16 0x1000)) (fun s =>
      s.H[0] == 0x6a09e667 && s.H[7] == 0x5be0cd19 && s.PHASE == .initialized && s.out == some ⟨0, 0⟩) = true := by
  decide

/-- R140's example. -/
theorem test_wrw_stores_big_endian :
    shows (exec (.wrw 0 0x61626380) opened) (fun s =>
      s.BLK == [(0, 0x61), (1, 0x62), (2, 0x63), (3, 0x80)] && s.BV == 0b1111 && s.out == some ⟨0, 0⟩) = true := by decide

/-- R140's example: nothing is written. -/
theorem test_wrw_misaligned :
    shows (exec (.wrw 2 0) opened) (fun s => s.BLK == [] && s.BV == 0 && s.CAUSE == 2 && s.out == some ⟨2, 0⟩) = true := by
  decide

/-- R141's example. -/
theorem test_wrb_stores_the_last_byte :
    shows (exec (.wrb 63 0x18) opened) (fun s =>
      s.BLK == [(63, 0x18)] && s.BV == 0x8000000000000000 && s.out == some ⟨0, 0⟩) = true := by decide

/-- R60: the phase is checked before a write. -/
theorem test_wrb_before_init : response (exec (.wrb 63 0x18) State.reset) = some ⟨3, 0⟩ := by decide

/-- R134's example. -/
theorem test_next_takes_the_block :
    shows (exec .next loaded) (fun s =>
      s.W[0] == 0x61626380 && s.W[15] == 0x00000018 && s.v.a == 0x6a09e667 && s.v.h == 0x5be0cd19 && s.BV == 0 &&
        s.SEQ == .expand && s.t == 16 && s.STATUS == 0x00000005) = true := by decide

/-- R137's example: a `NEXT` after reset is refused, and `STATUS` is then 0x38. -/
theorem test_next_after_reset :
    shows (exec .next State.reset) (fun s => s.STATUS == 0x00000038 && s.SEQ == .idle) = true := by decide

/-- R135's example. -/
theorem test_final_closes :
    shows (exec .final { opened with PHASE := .processing }) (fun s => s.STATUS == 0x00000003 && s.H == IV) = true := by
  decide

/-- R135: in `INITIALIZED` no block was processed. -/
theorem test_final_without_a_block : response (exec .final opened) = some ⟨3, 0⟩ := by decide

/-- R170's example. -/
theorem test_rdw_first_and_last_word :
    response (exec (.rdw 0) closed) = some ⟨0, 0xba7816bf⟩ ∧ response (exec (.rdw 28) closed) = some ⟨0, 0xf20015ad⟩ := by
  decide

/-- R205: `RDW 2` is misaligned, whatever the phase. -/
theorem test_rdw_misaligned_before_phase : response (exec (.rdw 2) State.reset) = some ⟨2, 0⟩ := by decide

/-- R171's example. -/
theorem test_rdb_counts_from_the_most_significant_byte :
    response (exec (.rdb 0) closed) = some ⟨0, 0xba⟩ ∧ response (exec (.rdb 3) closed) = some ⟨0, 0xbf⟩ ∧
    response (exec (.rdb 31) closed) = some ⟨0, 0xad⟩ := by decide

/-- R172's example: `b`, `7` and `d`. -/
theorem test_rdx_renders_lowercase :
    response (exec (.rdx 0) closed) = some ⟨0, 0x62⟩ ∧ response (exec (.rdx 2) closed) = some ⟨0, 0x37⟩ ∧
    response (exec (.rdx 63) closed) = some ⟨0, 0x64⟩ := by decide

/-- R137's example: `STATUS` while the second block is processed. -/
theorem test_rds_while_busy :
    response (exec .rds { busy .round 5 with PHASE := .processing }) = some ⟨0, 0x00000006⟩ := by decide

/-- R152's example: `EXPAND 18` of the block of "abc". -/
theorem test_expand_18 :
    shows (exec .expand { busy .expand 18 with W := (State.reset.W.set 0 0x61626380).set 16 0x61626380 }) (fun s =>
      s.W[18] == 0x7da86405 && s.W[17] == 0 && s.SEQ == .expand && s.t == 19) = true := by decide

/-- R152: the step at `t = 63` hands over to the rounds; the schedule of a zero block is zero. -/
theorem test_expand_63 :
    shows (exec .expand (busy .expand 63)) (fun s => s.W[63] == 0 && s.SEQ == .round && s.t == 0) = true := by decide

/-- R161's example: round 0 of the block of "abc". -/
theorem test_round_0 :
    shows (exec .round { busy .round 0 with v := Working.ofH IV, W := State.reset.W.set 0 0x61626380 }) (fun s =>
      s.v == ⟨0x5d6aebcd, 0x6a09e667, 0xbb67ae85, 0x3c6ef372, 0xfa2a4622, 0x510e527f, 0x9b05688c, 0x1f83d9ab⟩ &&
        s.SEQ == .round && s.t == 1) = true := by decide

/-- R163's example. -/
theorem test_fold_of_abc :
    shows (exec .fold { busy .fold 0 with
        v := ⟨0x506e3058, 0xd39a2165, 0x04d24d6c, 0xb85e2ce9, 0x5ef50f24, 0xfb121210, 0x948d25b6, 0x961f4894⟩ }) (fun s =>
      s.H == closed.H && s.PHASE == .processing && s.SEQ == .idle && s.t == 0) = true := by decide

/-- R130: while `BUSY` even an illegal word is held, and `RDS` is not. -/
theorem test_hold_is_decided_on_the_raw_word :
    cmdReady .round 0x0000 = false ∧ cmdReady .round 0x9001 = false ∧ cmdReady .round 0x9000 = true ∧
    cmdReady .idle 0x0000 = true := by decide

/-- R230: a held `INIT` survives a `RESET` in mid-block and is then accepted. -/
theorem test_reset_keeps_the_held_command :
    shows (step { busy .round 5 with pending := [⟨0x1000, 0⟩], schedule := [.reset] }) (fun s =>
      s.PHASE == .uninit && s.pending == [⟨0x1000, 0⟩] && nextTurn s == .host) = true := by decide

/-- R101 and R73: `WAIT` polls once before the `FOLD` step and once after it, and stops there. -/
theorem test_wait_stops_at_the_first_idle_status :
    (match wait [0, 1, 7] (busy .fold 0) with
      | .done s answers => s.SEQ == .idle && answers == [0x00000005, 0x00000002]
      | .waiting _ _ => false
      | .stopped => false) = true ∧
    waitCommands [0x00000005, 0x00000002] = [⟨0x9000, 0⟩, ⟨0x9000, 0⟩] ∧
    waitCommands [0x00000005] = [⟨0x9000, 0⟩, ⟨0x9000, 0⟩] := by decide

/-! ## Witnesses: states and operands that meet the hypotheses of a statement, clause by clause -/

theorem opened_inv : Inv opened := ⟨by decide, by decide, by decide, by decide, by decide, by decide, by decide⟩
theorem loaded_inv : Inv loaded := ⟨by decide, by decide, by decide, by decide, by decide, by decide, by decide⟩
theorem closed_inv : Inv closed := ⟨by decide, by decide, by decide, by decide, by decide, by decide, by decide⟩

/-- The sequencer's states at the ends of their ranges of `t`. -/
theorem busy_inv : Inv (busy .expand 16) ∧ Inv (busy .expand 63) ∧ Inv (busy .round 0) ∧ Inv (busy .round 63) ∧
    Inv (busy .fold 0) :=
  ⟨⟨by decide, by decide, by decide, by decide, by decide, by decide, by decide⟩,
    ⟨by decide, by decide, by decide, by decide, by decide, by decide, by decide⟩,
    ⟨by decide, by decide, by decide, by decide, by decide, by decide, by decide⟩,
    ⟨by decide, by decide, by decide, by decide, by decide, by decide, by decide⟩,
    ⟨by decide, by decide, by decide, by decide, by decide, by decide, by decide⟩⟩

/-- `Inv` says nothing of the port. -/
theorem inv_port {s : State} (h : Inv s) (p : List Command) (turns : List Turn) (o : Option Response) :
    Inv { s with pending := p, schedule := turns, out := o } :=
  ⟨h.counterZero, h.counterExpand, h.busyPhase, h.cause, h.initialized, h.block, h.valued⟩

theorem witness_DecodeEncodeRoundTrip :
    Instr.wf .init ∧ Instr.wf (.wrw 63 0xFFFFFFFF) ∧ Instr.wf (.wrb 63 0xFF) ∧ Instr.wf .next ∧ Instr.wf .final ∧
    Instr.wf (.rdw 31) ∧ Instr.wf (.rdb 31) ∧ Instr.wf (.rdx 63) ∧ Instr.wf .rds ∧ Instr.wf .expand ∧ Instr.wf .round ∧
    Instr.wf .fold := by decide

theorem witness_DecodedWordsReencode : decodeCommand 0x303f 0x000001ff = .legal (.wrb 63 0xff) := by decide

theorem witness_DecoderFollowsMatchAndMask :
    (0x1000#16 &&& 0xFFFF = 0x1000) ∧ (0x203f#16 &&& 0xFFC0 = 0x2000) ∧ (0x303f#16 &&& 0xFFC0 = 0x3000) ∧
    (0x4000#16 &&& 0xFFFF = 0x4000) ∧ (0x5000#16 &&& 0xFFFF = 0x5000) ∧ (0x601f#16 &&& 0xFFE0 = 0x6000) ∧
    (0x701f#16 &&& 0xFFE0 = 0x7000) ∧ (0x803f#16 &&& 0xFFC0 = 0x8000) ∧ (0x9000#16 &&& 0xFFFF = 0x9000) := by decide

/-- The last clause: `RDW` at address 32 selects no row. -/
theorem witness_DecoderFollowsMatchAndMask_illegal :
    ∃ c : CmdWord, c = 0x6020 ∧ c &&& 0xFFFF ≠ 0x1000 ∧ c &&& 0xFFC0 ≠ 0x2000 ∧ c &&& 0xFFC0 ≠ 0x3000 ∧
      c &&& 0xFFFF ≠ 0x4000 ∧ c &&& 0xFFFF ≠ 0x5000 ∧ c &&& 0xFFE0 ≠ 0x6000 ∧ c &&& 0xFFE0 ≠ 0x7000 ∧
      c &&& 0xFFC0 ≠ 0x8000 ∧ c &&& 0xFFFF ≠ 0x9000 := ⟨0x6020, by decide⟩

/-- Words at the ends of the classes of R97. -/
theorem witness_IllegalWordsAreExactlyTheListed :
    decodeCommand 0x0FFF 0 = .illegal .zeroField ∧ decodeCommand 0x003F 0 = .illegal .reservedOp ∧
    decodeCommand 0xA000 0 = .illegal .reservedOp ∧ decodeCommand 0xFFFF 0 = .illegal .zeroField ∧
    decodeCommand 0x1001 0 = .illegal .addrNotZero ∧ decodeCommand 0x103F 0 = .illegal .addrNotZero ∧
    decodeCommand 0x4001 0 = .illegal .addrNotZero ∧ decodeCommand 0x503F 0 = .illegal .addrNotZero ∧
    decodeCommand 0x903F 0 = .illegal .addrNotZero ∧ decodeCommand 0x6020 0 = .illegal .addrBeyondDigest ∧
    decodeCommand 0x703F 0 = .illegal .addrBeyondDigest := by decide

theorem witness_SequencerCodeSelectsTheStep :
    (busy .expand 16).SEQ = .expand ∧ (busy .round 0).SEQ = .round ∧ (busy .fold 0).SEQ = .fold ∧
    State.reset.SEQ = .idle := by decide

/-- The clauses in turn: a transaction accepted when idle (its schedule empty, so the clause about that too), an `RDS`
accepted while busy, a poll, an engine step, a sequencer's turn in `IDLE`, a host's turn with nothing presented, a
withdrawal, and an empty schedule while busy. -/
theorem witness_StepRunsTheDecodedInstruction :
    (∃ (s : State) (c : Command) (rest : List Command) (i : Instr), nextTurn s = .host ∧ s.pending = c :: rest ∧
      s.SEQ = .idle ∧ decode (.command c.cmd c.wdata) = .legal i ∧ s.schedule = []) ∧
    (∃ (s : State) (c : Command) (rest : List Command) (i : Instr), nextTurn s = .host ∧ s.pending = c :: rest ∧
      c.cmd = 0x9000 ∧ s.SEQ ≠ .idle ∧ decode (.command c.cmd c.wdata) = .legal i) ∧
    (∃ s : State, nextTurn s = .poll) ∧
    (∃ (s : State) (i : Instr), nextTurn s = .sequencer ∧ decode (.sequencer s.SEQ.code) = .legal i) ∧
    (∃ s : State, nextTurn s = .sequencer ∧ s.SEQ = .idle) ∧ (∃ s : State, nextTurn s = .host ∧ s.pending = []) ∧
    (∃ s : State, nextTurn s = .withdraw ∧ s.pending = [⟨0x1000, 0⟩]) ∧
    (∃ s : State, s.schedule = [] ∧ s.SEQ ≠ .idle ∧ ∀ c, s.pending.head? = some c → c.cmd ≠ 0x9000) :=
  ⟨⟨{ opened with pending := [⟨0x203C, 7⟩] }, ⟨0x203C, 7⟩, [], .wrw 60 7, by decide⟩,
    ⟨{ busy .round 63 with pending := [⟨0x9000, 0⟩] }, ⟨0x9000, 0⟩, [], .rds, by decide⟩,
    ⟨{ busy .round 63 with schedule := [.poll] }, by decide⟩,
    ⟨busy .fold 0, .fold, by decide⟩,
    ⟨State.reset, by decide⟩,
    ⟨{ opened with schedule := [.host] }, by decide⟩,
    ⟨{ busy .round 0 with pending := [⟨0x1000, 0⟩], schedule := [.withdraw] }, by decide⟩,
    ⟨{ busy .expand 16 with pending := [⟨0x5000, 0⟩] }, by decide, by decide, by
      intro c h; obtain rfl : (⟨0x5000, 0⟩ : Command) = c := by simpa using h
      decide⟩⟩

/-- Accepted, held (an illegal word), and a hold lifted by `FOLD`. -/
theorem witness_CommandsAreAcceptedOrHeld :
    (∃ s : State, nextTurn s = .host ∧ s.pending = [⟨0x0000, 0⟩] ∧ s.SEQ = .idle) ∧
    (∃ s : State, nextTurn s = .host ∧ s.pending = [⟨0x0000, 0⟩] ∧ s.SEQ ≠ .idle ∧ (0x0000 : CmdWord) ≠ 0x9000) ∧
    (∃ s s' : State, step s = .next s' ∧ s.SEQ ≠ .idle ∧ s'.SEQ = .idle) ∧
    (∃ s : State, Inv s ∧ s.SEQ ≠ .idle ∧ Undisturbed s) :=
  ⟨⟨{ State.reset with pending := [⟨0, 0⟩] }, by decide⟩,
    ⟨{ busy .round 0 with pending := [⟨0, 0⟩], schedule := [.host] }, by decide⟩,
    ⟨busy .fold 0, _, rfl, by decide, by decide⟩,
    ⟨busy .expand 16, busy_inv.1, by decide, rfl, by simp [busy, opened, State.reset]⟩⟩

theorem witness_BusyLastsExactlyTheRemainingSteps :
    ∃ s : State, Inv s ∧ s.SEQ ≠ .idle ∧ Undisturbed s ∧ s.SEQ = .expand ∧ s.t = 16 ∧ 112 < remaining s :=
  ⟨busy .expand 16, busy_inv.1, by decide, ⟨rfl, by simp [busy, opened, State.reset]⟩, rfl, rfl, by decide⟩

theorem witness_ResetEventClearsTheControlState : ∃ s : State, nextTurn s = .reset ∧ s.SEQ = .round ∧ s.ERR = true :=
  ⟨{ busy .round 63 with schedule := [.reset], ERR := true, CAUSE := 3 }, by decide⟩

/-- The three clauses of `NEXT`, and the bytes its last one reads, at both ends of `i`. -/
theorem witness_NextTakesTheBlock :
    State.reset.PHASE = .uninit ∧ closed.PHASE = .finalized ∧
    (TakesBlocks loaded.PHASE ∧ ({ loaded with BV := 0x7FFFFFFFFFFFFFFF } : State).BV ≠ 0xFFFFFFFFFFFFFFFF) ∧
    (TakesBlocks loaded.PHASE ∧ loaded.BV = 0xFFFFFFFFFFFFFFFF ∧ BytesValued loaded ∧
      loaded.BLK.read 0 = some 0x61 ∧ loaded.BLK.read 1 = some 0x62 ∧ loaded.BLK.read 2 = some 0x63 ∧
      loaded.BLK.read 3 = some 0x80 ∧ loaded.BLK.read 60 = some 0 ∧ loaded.BLK.read 61 = some 0 ∧
      loaded.BLK.read 62 = some 0 ∧ loaded.BLK.read 63 = some 0x18) := by decide

theorem witness_FinalClosesTheComputation :
    ({ opened with PHASE := .processing } : State).PHASE = .processing ∧ opened.PHASE ≠ .processing := by decide

theorem witness_RdsReturnsTheStatusRegister :
    (0x3F : Addr) ≠ 0 ∧ Inv (busy .round 63) ∧ (busy .round 63).STATUS.toNat / 4 % 2 = 1 :=
  ⟨by decide, busy_inv.2.2.2.1, by decide⟩

/-- Misaligned at the last address; aligned at the last word, in each kind of phase. -/
theorem witness_WrwStoresAWordBigEndian :
    (63 : Addr).toNat % 4 ≠ 0 ∧ (60 : Addr).toNat % 4 = 0 ∧ State.reset.PHASE = .uninit ∧ closed.PHASE = .finalized ∧
    TakesBlocks opened.PHASE := by decide

theorem witness_WrbStoresOneByte :
    State.reset.PHASE = .uninit ∧ closed.PHASE = .finalized ∧ TakesBlocks opened.PHASE ∧ (63 : Addr).toNat = 63 := by
  decide

theorem witness_WordWriteIsFourByteWrites : (60 : Addr).toNat % 4 = 0 ∧ TakesBlocks opened.PHASE := by decide

theorem witness_LoadingOrderDoesNotMatter :
    (loaded.BLK.wf ∧ (0 : Addr) ≠ 63 ∧ TakesBlocks loaded.PHASE) ∧
    (∃ (B : List Byte) (s : State) (rest : List Command), B.length = 64 ∧ TakesBlocks s.PHASE ∧ s.SEQ = .idle ∧
      s.schedule = [] ∧ s.pending = wrBlock B ++ rest) :=
  ⟨by decide, List.replicate 64 0x61, { opened with pending := wrBlock (List.replicate 64 0x61) ++ [⟨0x9000, 0⟩] },
    [⟨0x9000, 0⟩], by decide, by decide, by decide, by decide, rfl⟩

/-- Both clauses, at the ends of the range of `t`. -/
theorem witness_ExpandComputesTheNextScheduleWord :
    (16 ≤ (busy .expand 16).t.val ∧ (busy .expand 16).SEQ = .expand ∧ (busy .expand 16).t.val < 63) ∧
    (16 ≤ (busy .expand 63).t.val ∧ (busy .expand 63).SEQ = .expand ∧ (busy .expand 63).t.val = 63) := by decide

theorem witness_RoundMixesTheWorkingRegisters :
    ((busy .round 62).SEQ = .round ∧ (busy .round 62).t.val < 63) ∧
    ((busy .round 63).SEQ = .round ∧ (busy .round 63).t.val = 63) := by decide

theorem witness_FoldAddsTheWorkingRegisters : (busy .fold 0).SEQ = .fold := by decide

theorem witness_EngineStepsTouchOnlyTheDatapath :
    (∃ s', exec .expand (busy .expand 63) = .next s') ∧ (∃ s', exec .round (busy .round 63) = .next s') ∧
    (∃ s', exec .fold (busy .fold 0) = .next s') :=
  ⟨⟨_, rfl⟩, ⟨_, rfl⟩, ⟨_, rfl⟩⟩

theorem witness_RdwReturnsAWordOfTheDigest :
    ((31 : Addr).toNat < 32 ∧ (31 : Addr).toNat % 4 ≠ 0) ∧
    ((28 : Addr).toNat < 32 ∧ (28 : Addr).toNat % 4 = 0 ∧ opened.PHASE ≠ .finalized) ∧ closed.PHASE = .finalized ∧
    32 ≤ (32 : Addr).toNat := by decide

theorem witness_RdbReturnsAByteOfTheDigest :
    (31 : Addr).toNat < 32 ∧ opened.PHASE ≠ .finalized ∧ closed.PHASE = .finalized ∧ 32 ≤ (32 : Addr).toNat := by decide

theorem witness_RdxReturnsACharacterOfTheDigest : opened.PHASE ≠ .finalized ∧ closed.PHASE = .finalized := by decide

theorem witness_ReadsAgreeWithAssembleAndHex : closed.PHASE = .finalized ∧ (31 : Addr).toNat < 32 := by decide

/-- The three outcomes: `RESET`, `INIT`, and a read that leaves the digest. -/
theorem witness_FinalizedDigestIsStable :
    (∃ s s' : State, Inv s ∧ s.PHASE = .finalized ∧ step s = .next s' ∧ nextTurn s = .reset) ∧
    (∃ s s' : State, Inv s ∧ s.PHASE = .finalized ∧ step s = .next s' ∧ s.pending = [⟨0x1000, 0⟩]) ∧
    (∃ s s' : State, Inv s ∧ s.PHASE = .finalized ∧ step s = .next s' ∧ s.pending = [⟨0x601c, 0⟩]) :=
  ⟨⟨{ closed with schedule := [.reset] }, _, inv_port closed_inv [] [.reset] none, rfl, rfl, rfl⟩,
    ⟨{ closed with pending := [⟨0x1000, 0⟩] }, _, inv_port closed_inv [⟨0x1000, 0⟩] [] none, rfl, rfl, rfl⟩,
    ⟨{ closed with pending := [⟨0x601c, 0⟩] }, _, inv_port closed_inv [⟨0x601c, 0⟩] [] none, rfl, rfl, rfl⟩⟩

/-- The least and the greatest code. -/
theorem witness_FaultChangesOnlyTheRecord :
    (∃ s', State.reset.out = none ∧ exec (.rdw 32) State.reset = .next s' ∧ s'.out = some ⟨1, 0⟩) ∧
    (∃ s', opened.out = none ∧ exec .next opened = .next s' ∧ s'.out = some ⟨4, 0⟩) :=
  ⟨⟨_, rfl, rfl, rfl⟩, ⟨_, rfl, rfl, rfl⟩⟩

/-- Each arm of the table of responses, at each of its outcomes. -/
theorem witness_FirstFailingCheckDecides :
    BytesValued State.reset ∧ BytesValued loaded ∧ BytesValued closed ∧
    response (accept ⟨0x0000, 0⟩ State.reset) = some ⟨1, 0⟩ ∧ response (accept ⟨0x203f, 0⟩ State.reset) = some ⟨2, 0⟩ ∧
    response (accept ⟨0x203c, 0⟩ State.reset) = some ⟨3, 0⟩ ∧ response (accept ⟨0x203c, 0⟩ loaded) = some ⟨0, 0⟩ ∧
    response (accept ⟨0x303f, 0⟩ closed) = some ⟨3, 0⟩ ∧ response (accept ⟨0x303f, 0⟩ loaded) = some ⟨0, 0⟩ ∧
    response (accept ⟨0x4000, 0⟩ State.reset) = some ⟨3, 0⟩ ∧ response (accept ⟨0x4000, 0⟩ opened) = some ⟨4, 0⟩ ∧
    response (accept ⟨0x4000, 0⟩ loaded) = some ⟨0, 0⟩ ∧ response (accept ⟨0x5000, 0⟩ opened) = some ⟨3, 0⟩ ∧
    response (accept ⟨0x601f, 0⟩ opened) = some ⟨2, 0⟩ ∧ response (accept ⟨0x601c, 0⟩ opened) = some ⟨3, 0⟩ ∧
    response (accept ⟨0x701f, 0⟩ opened) = some ⟨3, 0⟩ ∧ response (accept ⟨0x803f, 0⟩ opened) = some ⟨3, 0⟩ ∧
    response (accept ⟨0x1000, 0⟩ opened) = some ⟨0, 0⟩ ∧ response (accept ⟨0x9000, 0⟩ opened) = some ⟨0, 1⟩ := by decide

/-- Every command answers a response in every phase, so the hypotheses are met in every cell of the table. -/
theorem witness_PhasePermissionTable :
    ∀ p : List Phase, p = [.uninit, .initialized, .processing, .finalized] → ∀ q ∈ p,
      ([.init, .wrw 60 0, .wrb 63 0, .next, .final, .rdw 28, .rdb 31, .rdx 63, .rds] : List Instr).all (fun i =>
        i.wf && (response (exec i { State.reset with PHASE := q })).isSome) = true := by
  rintro p rfl q hq
  fin_cases hq <;> decide

/-- A second fault, and an `RDS` with a fault on record. -/
theorem witness_FaultRecordIsStickyAndInert :
    (∃ s s' : State, step s = .next s' ∧ nextTurn s ≠ .reset ∧ s.ERR = true ∧ s'.out = some ⟨1, 0⟩) ∧
    (∃ s', Instr.next ≠ .rds ∧ exec .next loaded = .next s') ∧ (∃ s', exec .rds loaded = .next s') :=
  ⟨⟨{ State.reset with ERR := true, CAUSE := 3, pending := [⟨0, 0⟩] }, _, rfl, by decide, rfl, rfl⟩,
    ⟨_, by decide, rfl⟩, ⟨_, rfl⟩⟩

/-- The four transitions of R31. -/
theorem witness_PhaseChangesAsListed :
    (∃ s s' : State, Inv s ∧ step s = .next s' ∧ s'.PHASE ≠ s.PHASE ∧ nextTurn s = .reset) ∧
    (∃ s s' : State, Inv s ∧ step s = .next s' ∧ s'.PHASE ≠ s.PHASE ∧ s.pending = [⟨0x1000, 0⟩]) ∧
    (∃ s s' : State, Inv s ∧ step s = .next s' ∧ s'.PHASE ≠ s.PHASE ∧ s.SEQ = .fold) ∧
    (∃ s s' : State, Inv s ∧ step s = .next s' ∧ s'.PHASE ≠ s.PHASE ∧ s.pending = [⟨0x5000, 0⟩]) :=
  ⟨⟨{ opened with schedule := [.reset] }, _, inv_port opened_inv [] [.reset] none, rfl, by decide, rfl⟩,
    ⟨{ closed with pending := [⟨0x1000, 0⟩] }, _, inv_port closed_inv [⟨0x1000, 0⟩] [] none, rfl, by decide, rfl⟩,
    ⟨busy .fold 0, _, busy_inv.2.2.2.2, rfl, by decide, rfl⟩,
    ⟨{ opened with PHASE := .processing, pending := [⟨0x5000, 0⟩] }, _,
      ⟨by decide, by decide, by decide, by decide, by decide, by decide, by decide⟩, rfl, by decide, rfl⟩⟩

/-- The start of the path, its five moves, and the `RESET` that leaves it. -/
theorem witness_SequencerFollowsTheFixedPath :
    (∃ s s' : State, Inv s ∧ step s = .next s' ∧ s'.SEQ ≠ s.SEQ ∧ nextTurn s = .reset) ∧
    (∃ s s' : State, Inv s ∧ step s = .next s' ∧ s'.SEQ ≠ s.SEQ ∧ nextTurn s = .host ∧ s.pending = [⟨0x4000, 0⟩]) ∧
    (∃ s s' : State, Inv s ∧ step s = .next s' ∧ s'.t ≠ s.t ∧ s.SEQ = .expand ∧ s.t.val < 63) ∧
    (∃ s s' : State, Inv s ∧ step s = .next s' ∧ s'.t ≠ s.t ∧ s.SEQ = .expand ∧ s.t = 63) ∧
    (∃ s s' : State, Inv s ∧ step s = .next s' ∧ s'.t ≠ s.t ∧ s.SEQ = .round ∧ s.t.val < 63) ∧
    (∃ s s' : State, Inv s ∧ step s = .next s' ∧ s'.t ≠ s.t ∧ s.SEQ = .round ∧ s.t = 63) ∧
    (∃ s s' : State, Inv s ∧ step s = .next s' ∧ s'.SEQ ≠ s.SEQ ∧ s.SEQ = .fold) :=
  ⟨⟨{ busy .round 0 with schedule := [.reset] }, _, inv_port busy_inv.2.2.1 [] [.reset] none, rfl, by decide, rfl⟩,
    ⟨{ loaded with pending := [⟨0x4000, 0⟩] }, _, inv_port loaded_inv [⟨0x4000, 0⟩] [] none, rfl, by decide, by decide,
      rfl⟩,
    ⟨busy .expand 16, _, busy_inv.1, rfl, by decide, rfl, by decide⟩,
    ⟨busy .expand 63, _, busy_inv.2.1, rfl, by decide, rfl, rfl⟩,
    ⟨busy .round 0, _, busy_inv.2.2.1, rfl, by decide, rfl, by decide⟩,
    ⟨busy .round 63, _, busy_inv.2.2.2.1, rfl, by decide, rfl, rfl⟩,
    ⟨busy .fold 0, _, busy_inv.2.2.2.2, rfl, by decide, rfl⟩⟩

/-- The two writers. -/
theorem witness_DigestRegisterHasTwoWriters :
    (∃ s', exec .init State.reset = .next s' ∧ s'.H ≠ State.reset.H) ∧
    (∃ s', exec .fold { busy .fold 0 with v := Working.ofH IV } = .next s' ∧ s'.H ≠ (busy .fold 0).H) :=
  ⟨⟨_, rfl, by decide⟩, ⟨_, rfl, by decide⟩⟩

theorem witness_InvariantKeptByEveryStep :
    ∃ s s' : State, Inv s ∧ step s = .next s' ∧ s'.SEQ = .expand ∧ s'.PHASE = .initialized :=
  ⟨{ loaded with pending := [⟨0x4000, 0⟩] }, _, inv_port loaded_inv [⟨0x4000, 0⟩] [] none, rfl, rfl, rfl⟩

theorem witness_NoStateOfARunIsStuck : Inv (busy .fold 0) ∧ closed.SEQ = .idle := ⟨busy_inv.2.2.2.2, by decide⟩

/-- A poll, and a poll between two engine steps. -/
theorem witness_PollsDoNotDisturbTheBlock :
    ∃ (turns rest : List Turn) (s s' : State) (rs : List Response),
      (∀ turn ∈ turns, turn = .poll ∨ turn = .sequencer) ∧ s.schedule = turns ++ rest ∧ Runs turns.length s rs s' ∧
      turns.count .poll = 1 ∧ nextTurn s = .sequencer :=
  ⟨[.sequencer, .poll, .sequencer], [.poll],
    { busy .round 62 with schedule := [.sequencer, .poll, .sequencer, .poll] }, _, [⟨0, 5⟩], by decide, rfl,
    ⟨_, _, rfl, rfl, _, _, rfl, rfl, _, _, rfl, rfl, rfl, rfl⟩, by decide, by decide⟩

theorem witness_RunningStateIsNotObservable :
    ∃ s s' : State, s.PHASE ≠ .finalized ∧ step s = .next s' ∧ s.pending = [⟨0x601c, 0⟩] :=
  ⟨{ opened with pending := [⟨0x601c, 0⟩] }, _, by decide, rfl, rfl⟩

/-- Two states with other bits in every register that holds no value. -/
theorem witness_ValuelessRegistersAreNeverObserved :
    ∃ s₁ s₂ s₁' : State, Inv s₁ ∧ Inv s₂ ∧ SameValues s₁ s₂ ∧ step s₁ = .next s₁' ∧ s₁.W ≠ s₂.W ∧ s₁.BLK ≠ s₂.BLK :=
  ⟨{ loaded with pending := [⟨0x4000, 0⟩], BV := 0 },
    { loaded with pending := [⟨0x4000, 0⟩], BV := 0, BLK := [], W := Vector.replicate 64 1, v := Working.ofH IV }, _,
    ⟨by decide, by decide, by decide, by decide, by decide, by decide, by decide⟩,
    ⟨by decide, by decide, by decide, by decide, by decide, by decide, by decide⟩,
    ⟨by decide, by decide, by decide, by decide, by decide, fun h => absurd h (by decide), fun h => absurd h (by decide)⟩,
    rfl, by decide, by decide⟩

theorem witness_AdditionWrapsInAnyOrder : ([1, 2, 3] : List Word).Perm [3, 1, 2] := by decide

/-- The least and the greatest amount. -/
theorem witness_RotateIsCircularAndShiftIsLogical : (0 < 1 ∧ 1 < 32) ∧ (0 < 31 ∧ 31 < 32) := by decide

theorem witness_SequentialAssignmentsGiveTheRound :
    ∃ v v1 v2 v3 v4 v5 v6 v7 v8 : Working, ∃ k w : Word,
      v1 = { v with h := v.g } ∧ v2 = { v1 with g := v1.f } ∧ v3 = { v2 with f := v2.e } ∧
      v4 = { v3 with e := add32 [v3.d, temp1 v k w] } ∧ v5 = { v4 with d := v4.c } ∧ v6 = { v5 with c := v5.b } ∧
      v7 = { v6 with b := v6.a } ∧ v8 = { v7 with a := add32 [temp1 v k w, temp2 v] } :=
  ⟨Working.ofH IV, _, _, _, _, _, _, _, _, 0x428a2f98, 0x61626380, rfl, rfl, rfl, rfl, rfl, rfl, rfl, rfl⟩

theorem witness_BlockIsFoldedAfter113Steps :
    ∃ (s : State) (d : Word) (rest : List Command), Inv s ∧ s.SEQ = .idle ∧ TakesBlocks s.PHASE ∧
      s.BV = 0xFFFFFFFFFFFFFFFF ∧ s.schedule = [] ∧ s.pending = ⟨0x4000, d⟩ :: rest ∧
      ∀ c, rest.head? = some c → c.cmd ≠ 0x9000 :=
  ⟨{ loaded with pending := [⟨0x4000, 0⟩] }, 0, [], inv_port loaded_inv [⟨0x4000, 0⟩] [] none, rfl, by decide, rfl, rfl,
    rfl, by simp⟩

theorem witness_BlocksChainTheRunningState :
    ∃ (s : State) (blocks : List (List Byte)) (rest : List Command), Inv s ∧ s.SEQ = .idle ∧ TakesBlocks s.PHASE ∧
      s.schedule = [] ∧ s.pending = blocks.flatMap blockCommands ++ rest ∧ (∀ B ∈ blocks, B.length = 64) ∧ blocks ≠ [] ∧
      ∀ c, rest.head? = some c → c.cmd ≠ 0x9000 :=
  ⟨{ opened with pending := [List.replicate 64 1, List.replicate 64 2].flatMap blockCommands ++ [] },
    [List.replicate 64 1, List.replicate 64 2], [], inv_port opened_inv _ [] none, rfl, by decide, rfl, rfl, by decide,
    by decide, by simp⟩

/-- The lengths where the number of zero bytes is least and where a block of its own is needed. -/
theorem witness_PaddingIsTheLeastWholeNumberOfBlocks :
    ∃ m m' : List Byte, (m.length < 2 ^ 61 ∧ m.length = 64 * 1) ∧ (m'.length < 2 ^ 61 ∧ m'.length % 64 = 55) :=
  ⟨List.replicate 64 0, List.replicate 55 0, by simp, by simp⟩

/-- Both clauses at the bound. -/
theorem witness_OverlongMessagesIssueNoCommand :
    ∃ m m' : List Byte, 2 ^ 61 ≤ m.length ∧ m'.length < 2 ^ 61 :=
  ⟨List.replicate (2 ^ 61) 0, [], Nat.le_of_eq List.length_replicate.symm, by simp⟩

/-- From reset, and from the middle of an abandoned block. -/
theorem witness_HashProcedureReturnsTheDigest :
    (∃ (s : State) (m : List Byte), Inv s ∧ m.length < 2 ^ 61 ∧ s.schedule = [] ∧ s.pending = hashCommands m ∧
      s.PHASE = .initialized ∧ m = []) ∧
    (∃ (s : State) (m : List Byte), Inv s ∧ m.length < 2 ^ 61 ∧ s.schedule = [] ∧ s.pending = hashCommands m ∧
      s.SEQ = .expand ∧ m.length = 3) :=
  ⟨⟨{ opened with pending := hashCommands [] }, [], inv_port opened_inv _ [] none, by decide, rfl, rfl, rfl, rfl⟩,
    ⟨{ busy .expand 16 with pending := hashCommands [0x61, 0x62, 0x63] }, [0x61, 0x62, 0x63],
      inv_port busy_inv.1 _ [] none, by decide, rfl, rfl, rfl, rfl⟩⟩

/-- A `WAIT` that is done with its second poll (both clauses), and one in an idle engine. -/
theorem witness_WaitEndsAtTheFirstIdlePoll :
    (∃ (s s' : State) (gaps : List Nat) (answers : List Word), Inv s ∧ wait gaps s = .done s' answers ∧
      answers.length = 2 ∧ gaps ≠ [] ∧ remaining s ≤ gaps.sum ∧ s.SEQ ≠ .idle) ∧
    (∃ (s s' : State) (gaps : List Nat) (answers : List Word), Inv s ∧ wait gaps s = .done s' answers ∧ s.SEQ = .idle) :=
  ⟨⟨busy .fold 0, _, [0, 1], [5, 2], busy_inv.2.2.2.2, rfl, rfl, by decide, by decide, by decide⟩,
    ⟨opened, _, [0], [1], opened_inv, rfl, rfl⟩⟩

theorem witness_ReadSequencesGiveDigestAndHex :
    (∃ (s : State) (rest : List Command), s.PHASE = .finalized ∧ s.SEQ = .idle ∧ s.schedule = [] ∧
      s.pending = rdDigest ++ rest) ∧
    (∃ (s : State) (rest : List Command), s.PHASE = .finalized ∧ s.SEQ = .idle ∧ s.schedule = [] ∧
      s.pending = rdHex ++ rest) :=
  ⟨⟨{ closed with pending := rdDigest ++ [⟨0x1000, 0⟩] }, [⟨0x1000, 0⟩], rfl, rfl, rfl, rfl⟩,
    ⟨{ closed with pending := rdHex ++ [] }, [], rfl, rfl, rfl, rfl⟩⟩

end Sys2Proof.Tests
end

section
/-! What a turn comes to, one equation per case: the host's and the sequencer's turn, whose turn an empty schedule
makes it, and the step as the turn it takes. Each is proved once here from the definitions of the port. -/

namespace Sys2Proof.Machine

/-- A step is its turn, run from the state in which the step begins. -/
theorem step_eq_runTurn {s : State} {turn : Turn} (h : nextTurn s = turn) : step s = runTurn turn s.beginStep := by
  rw [step, h]

theorem accept_legal {c : Command} {i : Instr} (s : State) (h : decodeCommand c.cmd c.wdata = .legal i) :
    accept c s = exec i s := by
  rw [accept, h]

theorem hostTurn_nil {s : State} (h : s.pending = []) : hostTurn s = .next s := by
  rw [hostTurn, h]

theorem hostTurn_ready {s : State} {c : Command} {rest : List Command} (hp : s.pending = c :: rest)
    (hr : cmdReady s.SEQ c.cmd = true) : hostTurn s = accept c { s with pending := rest } := by
  simp only [hostTurn, hp, hr, if_true]

theorem sequencerTurn_legal {s : State} {i : Instr} (h : decodeSequencer s.SEQ.code = .legal i) :
    sequencerTurn s = exec i s := by
  rw [sequencerTurn, h]

theorem sequencerTurn_idle {s : State} (h : s.SEQ = .idle) : sequencerTurn s = .next s := by
  have hcode : decodeSequencer s.SEQ.code = .illegal .noStep := by rw [h]; rfl
  rw [sequencerTurn, hcode]

theorem nextTurn_of_schedule_nil {s : State} (h : s.schedule = []) : nextTurn s = eagerTurn s := by
  rw [nextTurn, h]

theorem eagerTurn_ready {s : State} {c : Command} {rest : List Command} (hp : s.pending = c :: rest)
    (hr : cmdReady s.SEQ c.cmd = true) : eagerTurn s = .host := by
  simp only [eagerTurn, hp, hr, if_true]

/-- With no transaction accepted, because none is presented or because it is held, the sequencer goes (R245). -/
theorem eagerTurn_not_ready {s : State} (h : ∀ c, s.pending.head? = some c → cmdReady s.SEQ c.cmd = false) :
    eagerTurn s = .sequencer := by
  unfold eagerTurn
  split
  next => rfl
  next c rest hp =>
    have hheld : cmdReady s.SEQ c.cmd = false := h c (by rw [hp]; rfl)
    rw [hheld]
    rfl

/-- A step in which the host's transaction is accepted (R130). -/
theorem step_host_ready {s : State} {c : Command} {rest : List Command} (ht : nextTurn s = .host)
    (hp : s.pending = c :: rest) (hr : cmdReady s.SEQ c.cmd = true) :
    step s = accept c { s.beginStep with pending := rest } :=
  (step_eq_runTurn ht).trans (hostTurn_ready hp hr)

/-- A poll is an `RDS` that leaves the presented transaction where it is (log entry 12). -/
theorem step_poll {s : State} (ht : nextTurn s = .poll) : step s = exec .rds s.beginStep :=
  (step_eq_runTurn ht).trans (accept_legal (c := ⟨rdsWord, 0⟩) _ rfl)

/-- Settles O7: each clause is the step's turn (`step_eq_runTurn`) followed by what that turn comes to. -/
theorem stepRunsTheDecodedInstruction : Obligations.StepRunsTheDecodedInstruction := by
  unfold Obligations.StepRunsTheDecodedInstruction
  refine ⟨?accepted, ?poll, ?engine, ?sequencerIdle, ?nothingPresented, ?withdraw, ?hostFirst, ?sequencerNext⟩
  case accepted =>
    intro s c rest i ht hp hr hi
    exact (step_host_ready ht hp ((cmdReady_iff _ _).2 hr)).trans (accept_legal _ hi)
  case poll => exact fun s ht => step_poll ht
  case engine => exact fun s i ht hi => (step_eq_runTurn ht).trans (sequencerTurn_legal hi)
  case sequencerIdle => exact fun s ht hq => (step_eq_runTurn ht).trans (sequencerTurn_idle hq)
  case nothingPresented => exact fun s ht hp => (step_eq_runTurn ht).trans (hostTurn_nil hp)
  case withdraw => exact fun s ht => step_eq_runTurn ht
  case hostFirst =>
    intro s c rest hs hp hr
    exact (nextTurn_of_schedule_nil hs).trans (eagerTurn_ready hp ((cmdReady_iff _ _).2 hr))
  case sequencerNext =>
    intro s hs hq hc
    refine (nextTurn_of_schedule_nil hs).trans (eagerTurn_not_ready fun c hhead => ?_)
    exact Bool.eq_false_iff.2 fun hr => ((cmdReady_iff _ _).1 hr).elim hq (hc c hhead)

end Sys2Proof.Machine
end

section
/-! A legal command word is the one the encoder writes for its instruction, so a decoded instruction tells the word that
was presented. -/

namespace Sys2Proof.Machine

/-- A command word with `ZERO = 0` is made of its operation and its address (R90). -/
theorem cmdWord_of_fields {c : CmdWord} {op : BitVec 4} (hz : zeroField c = 0) (hop : (opField c).toNat = op.toNat) :
    cmdWord op (addrField c) = c := by
  rw [cmdWord, ← BitVec.eq_of_toNat_eq hop, ← hz]
  apply BitVec.eq_of_getLsbD_eq
  intro i hi
  simp only [opField, zeroField, addrField, BitVec.getLsbD_append, BitVec.getLsbD_extractLsb']
  grind

theorem formatC_legal {A : Addr} {i j : Instr} (h : formatC A i = .legal j) : A = 0 ∧ i = j := by
  unfold formatC at h
  split at h
  · exact ⟨‹_›, by simpa using h⟩
  · simp at h

theorem formatDig_legal {A : Addr} {i j : Instr} (h : formatDig A i = .legal j) : i = j := by
  unfold formatDig at h
  split at h
  · simpa using h
  · simp at h

/-- What decodes is encoded by the very word it was decoded from (R95, R96). -/
theorem encode_of_decodeCommand {c : CmdWord} {d : Word} {i : Instr} (h : decodeCommand c d = .legal i) :
    ∃ d', encode i = .command c d' := by
  unfold decodeCommand at h
  split at h
  next => cases h
  next hz =>
    have word (op : BitVec 4) (hop : (opField c).toNat = op.toNat) : cmdWord op (addrField c) = c :=
      cmdWord_of_fields (not_not.1 hz) hop
    have plain (op : BitVec 4) (hop : (opField c).toNat = op.toNat) (j : Instr)
        (hf : formatC (addrField c) j = .legal i) : j = i ∧ cmdWord op 0 = c :=
      ⟨(formatC_legal hf).2, (formatC_legal hf).1 ▸ word op hop⟩
    split at h
    next hop => obtain ⟨rfl, hc⟩ := plain 1 hop _ h; exact ⟨_, congrArg (Code.command · 0) hc⟩
    next hop => cases h; exact ⟨_, congrArg (Code.command · d) (word 2 hop)⟩
    next hop => cases h; exact ⟨_, congrArg (Code.command · _) (word 3 hop)⟩
    next hop => obtain ⟨rfl, hc⟩ := plain 4 hop _ h; exact ⟨_, congrArg (Code.command · 0) hc⟩
    next hop => obtain ⟨rfl, hc⟩ := plain 5 hop _ h; exact ⟨_, congrArg (Code.command · 0) hc⟩
    next hop => obtain rfl := formatDig_legal h; exact ⟨_, congrArg (Code.command · 0) (word 6 hop)⟩
    next hop => obtain rfl := formatDig_legal h; exact ⟨_, congrArg (Code.command · 0) (word 7 hop)⟩
    next hop => cases h; exact ⟨_, congrArg (Code.command · 0) (word 8 hop)⟩
    next hop => obtain ⟨rfl, hc⟩ := plain 9 hop _ h; exact ⟨_, congrArg (Code.command · 0) hc⟩
    next => cases h

end Sys2Proof.Machine
end

section
/-! What one step does, by its effect on the machine: the port moves on, `RESET`, a fault, or the effect of an
instruction that somebody issued. -/

namespace Sys2Proof.Machine

/-- The instruction may run in this state of the sequencer: an engine step in its own (R102), `RDS` in every one, any
other command in `IDLE` only (R130). -/
def Admitted (i : Instr) (q : Seq) : Prop :=
  match i with
  | .rds => True
  | .expand => q = .expand
  | .round => q = .round
  | .fold => q = .fold
  | _ => q = .idle

theorem admitted_of_cmdReady {q : Seq} {c : CmdWord} {d : Word} {i : Instr} (hr : cmdReady q c = true)
    (hi : decodeCommand c d = .legal i) : Admitted i q := by
  rcases (cmdReady_iff q c).1 hr with hq | rfl
  · obtain ⟨hexpand, hround, hfold⟩ := decodeCommand_not_engine hi
    cases i with
    | rds => trivial
    | expand => exact absurd rfl hexpand
    | round => exact absurd rfl hround
    | fold => exact absurd rfl hfold
    | _ => exact hq
  · obtain rfl : Instr.rds = i := by simpa [show decodeCommand rdsWord d = .legal .rds from rfl] using hi
    trivial

theorem admitted_of_decodeSequencer {q : Seq} {i : Instr} (hi : decodeSequencer q.code = .legal i) : Admitted i q := by
  rcases (decodeSequencer_code q i).1 hi with ⟨hq, rfl⟩ | ⟨hq, rfl⟩ | ⟨hq, rfl⟩ <;> exact hq

/-- Somebody issues the instruction in the step from `s`: the host with the transaction it presents, the host with a
poll, or the sequencer (R14). -/
def Issued (i : Instr) (s : State) : Prop :=
  (nextTurn s = .host ∧ ∃ c rest, s.pending = c :: rest ∧ cmdReady s.SEQ c.cmd = true ∧
    decodeCommand c.cmd c.wdata = .legal i) ∨
  (nextTurn s = .poll ∧ i = .rds) ∨
  (nextTurn s = .sequencer ∧ decodeSequencer s.SEQ.code = .legal i)

theorem Issued.admitted {i : Instr} {s : State} (h : Issued i s) : Admitted i s.SEQ := by
  rcases h with ⟨_, c, rest, _, hr, hi⟩ | ⟨_, rfl⟩ | ⟨_, hi⟩
  · exact admitted_of_cmdReady hr hi
  · trivial
  · exact admitted_of_decodeSequencer hi

/-- A command other than `RDS` is issued by the host's turn, in `IDLE`, by presenting its word. -/
theorem Issued.presented {i : Instr} {s : State} {w : CmdWord} {d : Word} (h : Issued i s)
    (he : encode i = .command w d) (hw : w ≠ rdsWord) :
    nextTurn s = .host ∧ s.SEQ = .idle ∧ ∃ c rest, s.pending = c :: rest ∧ c.cmd = w := by
  rcases h with ⟨ht, c, rest, hp, hr, hi⟩ | ⟨_, rfl⟩ | ⟨_, hi⟩
  · obtain ⟨d', hd⟩ := encode_of_decodeCommand hi
    obtain rfl : w = c.cmd := by rw [he] at hd; exact (Code.command.inj hd).1
    exact ⟨ht, ((cmdReady_iff _ _).1 hr).resolve_right hw, c, rest, hp, rfl⟩
  · exact absurd (Code.command.inj he).1.symm hw
  · rcases (decodeSequencer_code _ _).1 hi with ⟨_, rfl⟩ | ⟨_, rfl⟩ | ⟨_, rfl⟩ <;> cases he

/-- An engine step is issued by the sequencer's turn (R102). -/
theorem Issued.engine {i : Instr} {s : State} {q : BitVec 2} (h : Issued i s) (he : encode i = .sequencer q) :
    nextTurn s = .sequencer := by
  rcases h with ⟨_, c, rest, _, _, hi⟩ | ⟨_, rfl⟩ | ⟨ht, _⟩
  · obtain ⟨d', hd⟩ := encode_of_decodeCommand hi
    rw [he] at hd; cases hd
  · cases he
  · exact ht

/-- What one step does. `p` is the host's list after it. -/
inductive StepOutcome (s s' : State) : Prop where
  /-- Only the port and the schedule move. -/
  | port (p : List Command) (eq : s' = { s.beginStep with pending := p })
  | reset (turn : nextTurn s = .reset) (eq : s' = s.beginStep.resetEvent)
  | fault (p : List Command) (c : Cause) (eq : s' = { s.beginStep with pending := p }.raise c)
  | effect (p : List Command) (i : Instr) (issued : Issued i s)
      (passes : firstFault i { s.beginStep with pending := p } = none)
      (eff : Effect i { s.beginStep with pending := p } s')

theorem StepOutcome.of_exec {i : Instr} {s s' : State} {p : List Command} (hi : Issued i s)
    (h : exec i { s.beginStep with pending := p } = .next s') : StepOutcome s s' := by
  rcases exec_next h with ⟨c, _, hc⟩ | ⟨hf, he⟩
  · exact .fault p c hc
  · exact .effect p i hi hf he

/-- The inversion of a step. -/
theorem step_outcome {s s' : State} (h : step s = .next s') : StepOutcome s s' := by
  cases step_next h with
  | nothing _ eq => exact .port s.pending eq
  | command c rest turn hp hr eq =>
    rcases accept_cases c { s.beginStep with pending := rest } with ⟨_, _, ha⟩ | ⟨i, hi, ha⟩
    · exact .fault rest .illegalCommand (by simpa [eq_comm] using ha.symm.trans eq)
    · exact .of_exec (.inl ⟨turn, c, rest, hp, hr, hi⟩) (ha.symm.trans eq)
  | poll turn eq => exact .of_exec (p := s.pending) (.inr (.inl ⟨turn, rfl⟩)) eq
  | withdraw _ eq => exact .port s.pending.tail eq
  | reset turn eq => exact .reset turn eq
  | engine i turn code eq => exact .of_exec (p := s.pending) (.inr (.inr ⟨turn, code⟩)) eq

end Sys2Proof.Machine
end

section
/-! What an instruction's effect leaves alone: `H`, `PHASE` and `(SEQ, t)` each have few writers. -/

namespace Sys2Proof.Machine

/-- `H` has two writers (R22). -/
theorem Effect.H_eq {i : Instr} {s s' : State} (h : Effect i s s') (hinit : i ≠ .init) (hfold : i ≠ .fold) :
    s'.H = s.H := by
  cases i with
  | init => exact absurd rfl hinit
  | fold => exact absurd rfl hfold
  | next => obtain ⟨_, rfl⟩ := h; rfl
  | expand => obtain ⟨_, rfl⟩ := h; simp
  | round => obtain rfl := h; simp
  | _ => obtain rfl := h; rfl

/-- `PHASE` has three writers (R31). -/
theorem Effect.PHASE_eq {i : Instr} {s s' : State} (h : Effect i s s') (hinit : i ≠ .init) (hfinal : i ≠ .final)
    (hfold : i ≠ .fold) : s'.PHASE = s.PHASE := by
  cases i with
  | init => exact absurd rfl hinit
  | final => exact absurd rfl hfinal
  | fold => exact absurd rfl hfold
  | next => obtain ⟨_, rfl⟩ := h; rfl
  | expand => obtain ⟨_, rfl⟩ := h; simp
  | round => obtain rfl := h; simp
  | _ => obtain rfl := h; rfl

/-- Only `NEXT` and the engine steps move `(SEQ, t)` (R33). -/
theorem Effect.SEQ_t_eq {i : Instr} {s s' : State} (h : Effect i s s') (hnext : i ≠ .next) (hexpand : i ≠ .expand)
    (hround : i ≠ .round) (hfold : i ≠ .fold) : s'.SEQ = s.SEQ ∧ s'.t = s.t := by
  cases i with
  | next => exact absurd rfl hnext
  | expand => exact absurd rfl hexpand
  | round => exact absurd rfl hround
  | fold => exact absurd rfl hfold
  | _ => obtain rfl := h; exact ⟨rfl, rfl⟩

/-- An advance stays and counts up, or is at the last index and goes on to the next state of the sequencer (R33). -/
theorem State.advance_cases (s : State) (after : Seq) :
    (s.t.val < 63 ∧ (s.advance after).SEQ = s.SEQ ∧ (s.advance after).t.val = s.t.val + 1) ∨
    (s.t = 63 ∧ (s.advance after).SEQ = after ∧ (s.advance after).t = 0) := by
  rw [s.advance_SEQ, s.advance_t]
  by_cases ht : s.t = 63
  · simp [ht]
  · have hlt : s.t.val < 63 := by have := s.t.isLt; have : s.t.val ≠ 63 := fun h => ht (Fin.ext h); omega
    exact .inl ⟨hlt, if_neg ht, by rw [if_neg ht, Fin.val_add_one_of_lt (Fin.lt_def.2 (by simpa using hlt))]⟩

theorem Effect.expand_path {s s' : State} (h : Effect .expand s s') :
    (s.t.val < 63 ∧ s'.SEQ = s.SEQ ∧ s'.t.val = s.t.val + 1) ∨ (s.t = 63 ∧ s'.SEQ = .round ∧ s'.t = 0) := by
  obtain ⟨ht, rfl⟩ := h
  exact State.advance_cases { s with W := s.W.set s.t.val (scheduleWord s.W s.t.val ⟨ht, s.t.isLt⟩) } .round

theorem Effect.round_path {s s' : State} (h : Effect .round s s') :
    (s.t.val < 63 ∧ s'.SEQ = s.SEQ ∧ s'.t.val = s.t.val + 1) ∨ (s.t = 63 ∧ s'.SEQ = .fold ∧ s'.t = 0) := by
  obtain rfl := h
  exact State.advance_cases { s with v := roundFn s.v K[s.t] s.W[s.t] } .fold

end Sys2Proof.Machine
end

section
/-! Which steps write `H`, change `PHASE` and move `(SEQ, t)`. -/

namespace Sys2Proof.Machine

/-- Settles O36: a fault writes the fault record only, and every effect but those of the two writers leaves `H`. -/
theorem digestRegisterHasTwoWriters : Obligations.DigestRegisterHasTwoWriters := by
  unfold Obligations.DigestRegisterHasTwoWriters
  intro i s s' h hH
  by_contra hi
  obtain ⟨hinit, hfold⟩ := not_or.1 hi
  refine hH ?_
  rcases exec_next h with ⟨c, _, rfl⟩ | ⟨_, he⟩
  · rfl
  · exact he.H_eq hinit hfold

/-- The checks of `FINAL` let it through in `PROCESSING` only (R203). -/
theorem PHASE_of_firstFault_final {s : State} (h : firstFault .final s = none) : s.PHASE = .processing := by
  obtain ⟨_, _, hperm, _⟩ := (firstFault_none_iff _ _).1 h
  simpa [permitted] using hperm

/-- Settles O34: the outcomes of a step (`step_outcome`) that write `PHASE` are `RESET` and the effects of `INIT`,
`FINAL` and `FOLD`. -/
theorem phaseChangesAsListed : Obligations.PhaseChangesAsListed := by
  unfold Obligations.PhaseChangesAsListed
  intro s s' hinv h hP
  cases step_outcome h with
  | port p eq => exact absurd (by rw [eq]; rfl) hP
  | fault p c eq => exact absurd (by rw [eq]; rfl) hP
  | reset turn eq => exact .inl ⟨turn, by rw [eq]; rfl⟩
  | effect p i issued passes eff =>
    by_cases hinit : i = .init
    · subst hinit
      obtain ⟨turn, hq, hword⟩ := issued.presented rfl (by decide)
      exact .inr (.inl ⟨turn, hq, hword, by rw [eff]; rfl⟩)
    by_cases hfinal : i = .final
    · subst hfinal
      obtain ⟨turn, hq, hword⟩ := issued.presented rfl (by decide)
      exact .inr (.inr (.inr ⟨turn, hq, hword, PHASE_of_firstFault_final passes, by rw [eff]; rfl⟩))
    by_cases hfold : i = .fold
    · subst hfold
      have hq : s.SEQ = .fold := issued.admitted
      have hbusy : s.SEQ ≠ .idle := by simp [hq]
      exact .inr (.inr (.inl ⟨issued.engine rfl, hq, (hinv.busyPhase hbusy).1, by rw [eff]⟩))
    exact absurd (eff.PHASE_eq hinit hfinal hfold) hP

/-- Settles O35: the outcomes of a step that move `(SEQ, t)` are `RESET`, the effect of `NEXT`, and the engine steps; in
`IDLE` and in `FOLD` the invariant says `t = 0`. -/
theorem sequencerFollowsTheFixedPath : Obligations.SequencerFollowsTheFixedPath := by
  unfold Obligations.SequencerFollowsTheFixedPath
  intro s s' hinv h hmoved
  have moved : ¬ (s'.SEQ = s.SEQ ∧ s'.t = s.t) := fun ⟨hq, ht⟩ => hmoved.elim (· hq) (· ht)
  cases step_outcome h with
  | port p eq => exact absurd (by rw [eq]; exact ⟨rfl, rfl⟩) moved
  | fault p c eq => exact absurd (by rw [eq]; exact ⟨rfl, rfl⟩) moved
  | reset turn eq => exact .inl ⟨turn, by rw [eq]; rfl, by rw [eq]; rfl⟩
  | effect p i issued passes eff =>
    by_cases hnext : i = .next
    · subst hnext
      obtain ⟨turn, hq, hword⟩ := issued.presented rfl (by decide)
      obtain ⟨_, rfl⟩ := eff
      exact .inr (.inl ⟨turn, hword, hq, hinv.counterZero (.inl hq), rfl, rfl⟩)
    by_cases hexpand : i = .expand
    · subst hexpand
      have hq : s.SEQ = .expand := issued.admitted
      refine .inr (.inr ⟨issued.engine rfl, ?_⟩)
      rcases eff.expand_path with ⟨ht, hq', ht'⟩ | ⟨ht, hq', ht'⟩
      · exact .inl ⟨hq, ht, hq'.trans hq, ht'⟩
      · exact .inr (.inl ⟨hq, ht, hq', ht'⟩)
    by_cases hround : i = .round
    · subst hround
      have hq : s.SEQ = .round := issued.admitted
      refine .inr (.inr ⟨issued.engine rfl, .inr (.inr ?_)⟩)
      rcases eff.round_path with ⟨ht, hq', ht'⟩ | ⟨ht, hq', ht'⟩
      · exact .inl ⟨hq, ht, hq'.trans hq, ht'⟩
      · exact .inr (.inl ⟨hq, ht, hq', ht'⟩)
    by_cases hfold : i = .fold
    · subst hfold
      have hq : s.SEQ = .fold := issued.admitted
      obtain rfl := eff
      exact .inr (.inr ⟨issued.engine rfl, .inr (.inr (.inr (.inr ⟨hq, rfl, rfl⟩)))⟩)
    exact absurd (eff.SEQ_t_eq hnext hexpand hround hfold) moved

end Sys2Proof.Machine
end

section
/-! What a write of a byte or a word does to the valid bits and to the bytes of the block. -/

namespace Sys2Proof.Machine

theorem State.getLsbD_writeByte_BV (s : State) (A : Addr) (b : Byte) {a : Nat} (ha : a < 64) :
    (s.writeByte A b).BV.getLsbD a = (decide (a = A.toNat) || s.BV.getLsbD a) := by
  rw [State.writeByte_BV, BitVec.getLsbD_or, BitVec.getLsbD_shiftLeft, BitVec.getLsbD_one, Bool.or_comm]
  congr 1
  simp only [ha, decide_true, Bool.true_and, ← decide_not, ← Bool.decide_and, decide_eq_decide]
  omega

theorem State.getLsbD_writeWord_BV (s : State) (A : Addr) (v : Word) {a : Nat} (ha : a < 64) :
    (s.writeWord A v).BV.getLsbD a = (decide (A.toNat ≤ a ∧ a ≤ A.toNat + 3) || s.BV.getLsbD a) := by
  have ones (i : Nat) : (0b1111#64).getLsbD i = decide (i < 4) := by
    rw [show (0b1111#64) = (BitVec.allOnes 4).setWidth 64 from rfl, BitVec.getLsbD_setWidth, BitVec.getLsbD_allOnes,
      ← Bool.decide_and, decide_eq_decide]
    omega
  rw [State.writeWord_BV, BitVec.getLsbD_or, BitVec.getLsbD_shiftLeft, ones, Bool.or_comm]
  congr 1
  simp only [ha, decide_true, Bool.true_and, ← decide_not, ← Bool.decide_and, decide_eq_decide]
  omega

/-- The bytes of a word stand at four addresses, the most significant first (R62). -/
theorem State.read_writeWord (s : State) (A : Addr) (v : Word) (a : Nat) :
    (s.writeWord A v).BLK.read a =
      if A.toNat ≤ a ∧ a ≤ A.toNat + 3 then some (byteOf (a - A.toNat) v) else s.BLK.read a := by
  simp only [State.writeWord_BLK, Memory.read_write]
  by_cases h : A.toNat ≤ a ∧ a ≤ A.toNat + 3
  · rw [if_pos h]
    obtain h | h | h | h : a = A.toNat ∨ a = A.toNat + 1 ∨ a = A.toNat + 2 ∨ a = A.toNat + 3 := by omega
    all_goals simp [h]
  · rw [if_neg h, if_neg (by omega), if_neg (by omega), if_neg (by omega), if_neg (by omega)]

/-- A byte that is valid after a write and was not written was valid before. -/
theorem State.valid_of_writeByte {s : State} {A : Addr} {b : Byte} {a : Nat} (ha : a < 64)
    (hv : (s.writeByte A b).BV.getLsbD a = true) (hne : a ≠ A.toNat) : s.BV.getLsbD a = true := by
  rwa [s.getLsbD_writeByte_BV A b ha, decide_eq_false hne, Bool.false_or] at hv

theorem State.valid_of_writeWord {s : State} {A : Addr} {v : Word} {a : Nat} (ha : a < 64)
    (hv : (s.writeWord A v).BV.getLsbD a = true) (hout : ¬ (A.toNat ≤ a ∧ a ≤ A.toNat + 3)) :
    s.BV.getLsbD a = true := by
  rwa [s.getLsbD_writeWord_BV A v ha, decide_eq_false hout, Bool.false_or] at hv

theorem BytesValued.writeByte {s : State} (h : BytesValued s) (A : Addr) (b : Byte) :
    BytesValued (s.writeByte A b) := by
  intro a ha hv
  rw [State.writeByte_BLK, Memory.read_write]
  split
  next => rfl
  next hne => exact h a ha (State.valid_of_writeByte ha hv hne)

theorem BytesValued.writeWord {s : State} (h : BytesValued s) (A : Addr) (v : Word) :
    BytesValued (s.writeWord A v) := by
  intro a ha hv
  rw [State.read_writeWord]
  split
  next => rfl
  next hout => exact h a ha (State.valid_of_writeWord ha hv hout)

/-- In a complete block every byte is valid (R25). -/
theorem valid_of_complete {s : State} (hbv : s.BV = 0xFFFFFFFFFFFFFFFF) {a : Nat} (ha : a < 64) :
    s.BV.getLsbD a = true := by
  rw [hbv, show (0xFFFFFFFFFFFFFFFF : BitVec 64) = BitVec.allOnes 64 from rfl, BitVec.getLsbD_allOnes]
  exact decide_eq_true ha

/-- A complete block whose valid bytes hold a value is full. -/
theorem BytesValued.full {s : State} (h : BytesValued s) (hbv : s.BV = 0xFFFFFFFFFFFFFFFF) : s.BLK.full = true :=
  (Memory.full_iff _).2 fun a ha => h a ha (valid_of_complete hbv ha)

/-- With no valid bit set there is nothing to have a value. -/
theorem bytesValued_of_BV_eq_zero {s : State} (h : s.BV = 0) : BytesValued s := by
  intro a _ hv
  rw [h, BitVec.ofNat_eq_ofNat, BitVec.getLsbD_zero] at hv
  cases hv

end Sys2Proof.Machine
end

section
/-! The invariant of R40: it holds at reset, and each thing a step can do keeps it. -/

namespace Sys2Proof.Machine

theorem inv_reset : Inv State.reset where
  counterZero := by decide
  counterExpand := by decide
  busyPhase := by decide
  cause := by decide
  initialized := by decide
  block := Memory.reset_wf
  valued := bytesValued_of_BV_eq_zero rfl

/-- Settles O38: `inv_reset`. -/
theorem invariantHoldsAtReset : Obligations.InvariantHoldsAtReset := inv_reset

/-- The invariant says nothing of the port. -/
theorem Inv.port {s : State} (h : Inv s) (p : List Command) (turns : List Turn) (o : Option Response) :
    Inv { s with pending := p, schedule := turns, out := o } :=
  { h with }

/-- The invariant says nothing of `W` and `a..h`. -/
theorem Inv.datapath {s : State} (h : Inv s) (W : Vector Word 64) (v : Working) : Inv { s with W := W, v := v } :=
  { h with }

theorem Inv.respond {s : State} (h : Inv s) (data : Word) : Inv (s.respond data) :=
  h.port s.pending s.schedule (some ⟨0, data⟩)

theorem Inv.resetEvent (s : State) : Inv s.resetEvent := inv_reset.port s.pending s.schedule none

theorem Inv.raise {s : State} (h : Inv s) (c : Cause) : Inv (s.raise c) where
  counterZero := h.counterZero
  counterExpand := h.counterExpand
  busyPhase := h.busyPhase
  cause := by
    refine ⟨fun he => (Bool.noConfusion he), fun _ => ?_⟩
    rw [State.raise_CAUSE]
    split
    next he => exact h.cause.2 he
    next => exact c.code_range
  initialized := h.initialized
  block := h.block
  valued := h.valued

/-- In `IDLE` the block may be written, with a value in every byte that is valid. -/
theorem Inv.load {s : State} (h : Inv s) (hq : s.SEQ = .idle) {m : Memory} {bv : BitVec 64} (hm : m.wf)
    (hv : BytesValued { s with BLK := m, BV := bv }) : Inv { s with BLK := m, BV := bv } where
  counterZero := h.counterZero
  counterExpand := h.counterExpand
  busyPhase := fun hbusy => absurd hq hbusy
  cause := h.cause
  initialized := h.initialized
  block := hm
  valued := hv

theorem Inv.start {s : State} (h : Inv s) (hq : s.SEQ = .idle) :
    Inv { s with H := IV, PHASE := .initialized, BV := 0 } where
  counterZero := h.counterZero
  counterExpand := h.counterExpand
  busyPhase := fun hbusy => absurd hq hbusy
  cause := h.cause
  initialized := fun _ => rfl
  block := h.block
  valued := bytesValued_of_BV_eq_zero rfl

theorem Inv.close {s : State} (h : Inv s) (hq : s.SEQ = .idle) : Inv { s with PHASE := .finalized } where
  counterZero := h.counterZero
  counterExpand := h.counterExpand
  busyPhase := fun hbusy => absurd hq hbusy
  cause := h.cause
  initialized := fun hp => by cases hp
  block := h.block
  valued := h.valued

theorem Inv.takeBlock {s : State} (h : Inv s) (hp : TakesBlocks s.PHASE) : Inv s.takeBlock where
  counterZero := by simp
  counterExpand := fun _ => Nat.le_refl 16
  busyPhase := fun _ => ⟨hp, rfl⟩
  cause := h.cause
  initialized := h.initialized
  block := h.block
  valued := bytesValued_of_BV_eq_zero rfl

/-- An advance of `EXPAND` or `ROUND` keeps `t` in the range of the state it leads to (R33). -/
theorem Inv.advance {s : State} {after : Seq} (h : Inv s) (hq : s.SEQ = .expand ∨ s.SEQ = .round)
    (hafter : after = .round ∨ after = .fold) : Inv (s.advance after) := by
  have hbusy : s.SEQ ≠ .idle := by rcases hq with hq | hq <;> simp [hq]
  have hpath := s.advance_cases after
  refine ⟨fun hz => ?counterZero, fun he => ?counterExpand, fun _ => ?busyPhase, ?cause, ?initialized, ?block, ?valued⟩
  case counterZero =>
    rcases hpath with ⟨_, hq', _⟩ | ⟨_, _, ht'⟩
    · rw [hq'] at hz
      rcases hq with hq | hq <;> simp [hq] at hz
    · exact ht'
  case counterExpand =>
    rcases hpath with ⟨_, hq', ht'⟩ | ⟨_, hq', _⟩
    · have := h.counterExpand (hq' ▸ he)
      omega
    · rw [hq'] at he
      rcases hafter with ha | ha <;> simp [ha] at he
  case busyPhase => simpa using h.busyPhase hbusy
  case cause => simpa using h.cause
  case initialized => simpa using h.initialized
  case block => rw [State.advance_BLK]; exact h.block
  case valued =>
    intro a ha hv
    rw [State.advance_BV] at hv
    rw [State.advance_BLK]
    exact h.valued a ha hv

theorem Inv.fold {s : State} (h : Inv s) (H : Vector Word 8) :
    Inv { s with H := H, PHASE := .processing, SEQ := .idle, t := 0 } where
  counterZero := fun _ => rfl
  counterExpand := fun he => by cases he
  busyPhase := fun hbusy => absurd rfl hbusy
  cause := h.cause
  initialized := fun hp => by cases hp
  block := h.block
  valued := h.valued

theorem Phase.takesBlocks_iff (p : Phase) : p.takesBlocks = true ↔ TakesBlocks p := by
  cases p <;> decide

/-- The checks of `NEXT` let it through in a phase that takes blocks only, and with a complete block. -/
theorem of_firstFault_next {s : State} (h : firstFault .next s = none) :
    TakesBlocks s.PHASE ∧ s.BV = 0xFFFFFFFFFFFFFFFF := by
  obtain ⟨_, _, hperm, hblock⟩ := (firstFault_none_iff _ _).1 h
  exact ⟨s.PHASE.takesBlocks_iff.1 hperm, by simpa [State.blockComplete] using hblock rfl⟩

/-- The checks of `WRW` let it through at an aligned address only (R68). -/
theorem aligned_of_firstFault_wrw {s : State} {A : Addr} {v : Word} (h : firstFault (.wrw A v) s = none) :
    aligned A = true := by
  obtain ⟨_, hmis, _, _⟩ := (firstFault_none_iff _ _).1 h
  simpa [misaligned] using hmis

theorem Inv.effect {i : Instr} {s s' : State} (h : Inv s) (hi : Admitted i s.SEQ) (hf : firstFault i s = none)
    (he : Effect i s s') : Inv s' := by
  cases i with
  | init => obtain rfl := he; exact (h.start hi).respond 0
  | wrw A v =>
    obtain rfl := he
    exact (h.load hi (s.writeWord_wf A v (aligned_of_firstFault_wrw hf) h.block) (h.valued.writeWord A v)).respond 0
  | wrb A b =>
    obtain rfl := he
    exact (h.load hi (s.writeByte_wf A b h.block) (h.valued.writeByte A b)).respond 0
  | next => obtain ⟨_, rfl⟩ := he; exact (h.takeBlock (of_firstFault_next hf).1).respond 0
  | final => obtain rfl := he; exact (h.close hi).respond 0
  | rdw A => obtain rfl := he; exact h.respond _
  | rdb A => obtain rfl := he; exact h.respond _
  | rdx A => obtain rfl := he; exact h.respond _
  | rds => obtain rfl := he; exact h.respond _
  | expand => obtain ⟨_, rfl⟩ := he; exact (h.datapath _ s.v).advance (.inl hi) (.inl rfl)
  | round => obtain rfl := he; exact (h.datapath s.W _).advance (.inr hi) (.inr rfl)
  | fold => obtain rfl := he; exact h.fold _

/-- Every step keeps the invariant: each outcome of `step_outcome` does. -/
theorem Inv.step {s s' : State} (hinv : Inv s) (h : Machine.step s = .next s') : Inv s' := by
  have base (p : List Command) : Inv { s.beginStep with pending := p } := hinv.port p s.schedule.tail none
  cases step_outcome h with
  | port p eq => exact eq ▸ base p
  | reset _ eq => exact eq ▸ Inv.resetEvent s.beginStep
  | fault p c eq => exact eq ▸ (base p).raise c
  | effect p i issued passes eff => exact (base p).effect issued.admitted passes eff

/-- Settles O37: `Inv.step`. -/
theorem invariantKeptByEveryStep : Obligations.InvariantKeptByEveryStep := fun _ _ hinv h => hinv.step h

end Sys2Proof.Machine
end

section
/-! A busy engine left undisturbed takes one step of the path of R33 each time, so `remaining` counts down to `IDLE`. -/

namespace Sys2Proof.Machine

theorem remaining_of_idle {s : State} (hq : s.SEQ = .idle) : remaining s = 0 := by
  rw [remaining, hq]

theorem remaining_of_expand {s : State} (hq : s.SEQ = .expand) : remaining s = 64 - s.t.val + 64 + 1 := by
  rw [remaining, hq]

theorem remaining_of_round {s : State} (hq : s.SEQ = .round) : remaining s = 64 - s.t.val + 1 := by
  rw [remaining, hq]

theorem remaining_of_fold {s : State} (hq : s.SEQ = .fold) : remaining s = 1 := by
  rw [remaining, hq]

theorem remaining_eq_zero_iff (s : State) : remaining s = 0 ↔ s.SEQ = .idle := by
  refine ⟨fun h => ?_, remaining_of_idle⟩
  cases hq : s.SEQ with
  | idle => rfl
  | expand => rw [remaining_of_expand hq] at h; omega
  | round => rw [remaining_of_round hq] at h; omega
  | fold => rw [remaining_of_fold hq] at h; omega

/-- `s'` is one engine step on from the busy state `s`: one step fewer is left, the port is as it was, and `PHASE` is
set by the last step only (R163). -/
structure EngineStep (s s' : State) : Prop where
  remaining_succ : remaining s' + 1 = remaining s
  phase : s'.PHASE = if remaining s = 1 then .processing else s.PHASE
  pending : s'.pending = s.pending
  schedule : s'.schedule = s.schedule
  out : s'.out = s.out

theorem engineStep_expand {s s' : State} (hq : s.SEQ = .expand) (he : Effect .expand s s') : EngineStep s s' := by
  have hleft := remaining_of_expand hq
  refine ⟨?_, ?_, ?_, ?_, ?_⟩
  · rcases he.expand_path with ⟨_, hq', ht'⟩ | ⟨ht, hq', ht'⟩
    · rw [hleft, remaining_of_expand (hq'.trans hq), ht']; omega
    · rw [hleft, remaining_of_round hq', ht, ht']; rfl
  · rw [if_neg (by omega), he.PHASE_eq nofun nofun nofun]
  all_goals obtain ⟨_, rfl⟩ := he; simp

theorem engineStep_round {s s' : State} (hq : s.SEQ = .round) (he : Effect .round s s') : EngineStep s s' := by
  have hleft := remaining_of_round hq
  refine ⟨?_, ?_, ?_, ?_, ?_⟩
  · rcases he.round_path with ⟨_, hq', ht'⟩ | ⟨ht, hq', ht'⟩
    · rw [hleft, remaining_of_round (hq'.trans hq), ht']; omega
    · rw [hleft, remaining_of_fold hq', ht]; rfl
  · rw [if_neg (by omega), he.PHASE_eq nofun nofun nofun]
  all_goals obtain rfl := he; simp

theorem engineStep_fold {s s' : State} (hq : s.SEQ = .fold) (he : Effect .fold s s') : EngineStep s s' := by
  obtain rfl := he
  have hleft := remaining_of_fold hq
  exact ⟨hleft.symm, (if_pos hleft).symm, rfl, rfl, rfl⟩

/-- In a busy state of a run the sequencer's code selects an engine step, and the step answers. -/
theorem engineStep_of_busy {s : State} (h : Inv s) (hbusy : s.SEQ ≠ .idle) :
    ∃ i s', decodeSequencer s.SEQ.code = .legal i ∧ exec i s = .next s' ∧ EngineStep s s' := by
  have effect {i : Instr} {s' : State} (he : exec i s = .next s') (hf : firstFault i s = none) : Effect i s s' := by
    rcases exec_next he with ⟨c, hc, _⟩ | ⟨_, he⟩
    · rw [hf] at hc; cases hc
    · exact he
  cases hq : s.SEQ with
  | idle => exact absurd hq hbusy
  | expand =>
    obtain ⟨s', he⟩ := (execExpand_next_iff s).2 (h.counterExpand hq)
    exact ⟨.expand, s', rfl, he, engineStep_expand hq (effect he rfl)⟩
  | round => exact ⟨.round, _, rfl, rfl, engineStep_round hq (effect rfl rfl)⟩
  | fold => exact ⟨.fold, _, rfl, rfl, engineStep_fold hq (effect rfl rfl)⟩

theorem nextTurn_of_undisturbed {s : State} (hbusy : s.SEQ ≠ .idle) (hu : Undisturbed s) : nextTurn s = .sequencer :=
  (nextTurn_of_schedule_nil hu.1).trans (eagerTurn_not_ready fun c hc =>
    Bool.eq_false_iff.2 fun hr => ((cmdReady_iff _ _).1 hr).elim hbusy (hu.2 c hc))

/-- Undisturbed, the next step of a busy engine is the engine's. -/
theorem step_of_undisturbed {s : State} (h : Inv s) (hbusy : s.SEQ ≠ .idle) (hu : Undisturbed s) :
    ∃ s', step s = .next s' ∧ EngineStep s.beginStep s' := by
  obtain ⟨i, s', hi, he, hstep⟩ := engineStep_of_busy (h.port s.pending s.schedule.tail none : Inv s.beginStep) hbusy
  exact ⟨s', (step_eq_runTurn (nextTurn_of_undisturbed hbusy hu)).trans ((sequencerTurn_legal hi).trans he), hstep⟩

/-- Undisturbed, a busy engine takes any number of the steps left, with no response and no change of the port. -/
theorem runs_of_undisturbed (m : Nat) {s : State} (h : Inv s) (hbusy : s.SEQ ≠ .idle) (hu : Undisturbed s)
    (hm : m ≤ remaining s) :
    ∃ s', Runs m s [] s' ∧ Inv s' ∧ remaining s' + m = remaining s ∧
      s'.PHASE = (if m < remaining s then s.PHASE else .processing) ∧ s'.pending = s.pending ∧
      s'.schedule = s.schedule := by
  induction m generalizing s with
  | zero =>
    have hpos : 0 < remaining s := Nat.pos_of_ne_zero fun h0 => hbusy ((remaining_eq_zero_iff s).1 h0)
    exact ⟨s, ⟨rfl, rfl⟩, h, rfl, (if_pos hpos).symm, rfl, rfl⟩
  | succ m ih =>
    obtain ⟨s₁, hs₁, hstep⟩ := step_of_undisturbed h hbusy hu
    have hleft : remaining s₁ + 1 = remaining s := hstep.remaining_succ
    have hphase : s₁.PHASE = if remaining s = 1 then .processing else s.PHASE := hstep.phase
    have hschedule : s₁.schedule = s.schedule := hstep.schedule.trans (by rw [State.beginStep_schedule, hu.1]; rfl)
    have first {s' : State} (hr : Runs m s₁ [] s') : Runs (m + 1) s [] s' :=
      ⟨s₁, [], hs₁, by rw [hstep.out]; rfl, hr⟩
    by_cases hlast : remaining s = 1
    · obtain rfl : m = 0 := by omega
      exact ⟨s₁, first ⟨rfl, rfl⟩, h.step hs₁, hleft, by simp [hphase, hlast], hstep.pending, hschedule⟩
    · have hbusy₁ : s₁.SEQ ≠ .idle := fun hq => by have := remaining_of_idle hq; omega
      have hu₁ : Undisturbed s₁ := ⟨hschedule.trans hu.1, hstep.pending ▸ hu.2⟩
      obtain ⟨s', hr, hinv, hleft', hphase', hpending', hschedule'⟩ := ih (h.step hs₁) hbusy₁ hu₁ (by omega)
      refine ⟨s', first hr, hinv, by omega, ?_, hpending'.trans hstep.pending, hschedule'.trans hschedule⟩
      rw [hphase', hphase, if_neg hlast]
      simp only [← hleft, Nat.add_lt_add_iff_right]

/-- Settles O9: the run of `runs_of_undisturbed`, stopped after all the steps left and after fewer. -/
theorem busyLastsExactlyTheRemainingSteps : Obligations.BusyLastsExactlyTheRemainingSteps := by
  unfold Obligations.BusyLastsExactlyTheRemainingSteps
  intro s h hbusy hu
  refine ⟨?idleThen, ?busyBefore, ?block⟩
  case idleThen =>
    obtain ⟨s', hr, hinv, hleft, hphase, -⟩ := runs_of_undisturbed (remaining s) h hbusy hu le_rfl
    have hq : s'.SEQ = .idle := (remaining_eq_zero_iff s').1 (by omega)
    exact ⟨s', hr, hq, hinv.counterZero (.inl hq), by simpa using hphase⟩
  case busyBefore =>
    intro m hm
    obtain ⟨s', hr, -, hleft, hphase, -⟩ := runs_of_undisturbed m h hbusy hu hm.le
    exact ⟨s', hr, fun hq => by have := remaining_of_idle hq; omega, by rw [hphase, if_pos hm]⟩
  case block =>
    intro hq ht
    rw [remaining_of_expand hq, ht]
    rfl

end Sys2Proof.Machine
end

section
/-! `SameValues` through every update of the state: what holds a value in both states stays equal. -/

namespace Sys2Proof.Machine

variable {s₁ s₂ : State}

theorem SameValues.refl (s : State) : SameValues s s where
  control := ⟨rfl, rfl, rfl, rfl, rfl, rfl⟩
  port := ⟨rfl, rfl, rfl⟩
  block := fun _ _ _ => rfl
  digest := fun _ => rfl
  working := fun _ => rfl
  expanding := fun _ _ _ _ => rfl
  mixing := fun _ => rfl

theorem SameValues.withPending (h : SameValues s₁ s₂) (p : List Command) :
    SameValues { s₁ with pending := p } { s₂ with pending := p } :=
  have ⟨_, hs, ho⟩ := h.port
  { h with port := ⟨rfl, hs, ho⟩ }

theorem SameValues.beginStep (h : SameValues s₁ s₂) : SameValues s₁.beginStep s₂.beginStep :=
  have ⟨hp, hs, _⟩ := h.port
  { h with port := ⟨hp, congrArg List.tail hs, rfl⟩ }

theorem SameValues.respond (h : SameValues s₁ s₂) (data : Word) : SameValues (s₁.respond data) (s₂.respond data) :=
  have ⟨hp, hs, _⟩ := h.port
  { h with port := ⟨hp, hs, rfl⟩ }

theorem SameValues.raise (h : SameValues s₁ s₂) (c : Cause) : SameValues (s₁.raise c) (s₂.raise c) := by
  obtain ⟨hBV, hP, hq, ht, hE, hC⟩ := h.control
  obtain ⟨hp, hs, _⟩ := h.port
  exact { h with control := ⟨hBV, hP, hq, ht, rfl, by simp [hE, hC]⟩, port := ⟨hp, hs, rfl⟩ }

/-- After `RESET` the two states are one: what it leaves is the host's. -/
theorem SameValues.resetEvent (h : SameValues s₁ s₂) : SameValues s₁.resetEvent s₂.resetEvent := by
  obtain ⟨hp, hs, _⟩ := h.port
  rw [State.resetEvent, State.resetEvent, hp, hs]
  exact SameValues.refl _

theorem SameValues.start (h : SameValues s₁ s₂) :
    SameValues { s₁ with H := IV, PHASE := .initialized, BV := 0 }
      { s₂ with H := IV, PHASE := .initialized, BV := 0 } := by
  obtain ⟨_, _, hcontrol⟩ := h.control
  exact { h with
    control := ⟨rfl, rfl, hcontrol⟩
    block := fun a _ hv => by simp at hv
    digest := fun _ => rfl }

/-- A load of the same valid bits, and of the same bytes where they are set, into both blocks. -/
theorem SameValues.load (h : SameValues s₁ s₂) {m₁ m₂ : Memory} {bv₁ bv₂ : BitVec 64} (hbv : bv₁ = bv₂)
    (hm : ∀ a, a < 64 → bv₁.getLsbD a = true → m₁.read a = m₂.read a) :
    SameValues { s₁ with BLK := m₁, BV := bv₁ } { s₂ with BLK := m₂, BV := bv₂ } := by
  obtain ⟨_, hcontrol⟩ := h.control
  exact { h with control := ⟨hbv, hcontrol⟩, block := hm }

theorem SameValues.writeByte (h : SameValues s₁ s₂) (A : Addr) (b : Byte) :
    SameValues (s₁.writeByte A b) (s₂.writeByte A b) := by
  obtain ⟨hBV, _⟩ := h.control
  refine h.load (congrArg (· ||| _) hBV) fun a ha hv => ?_
  rw [Memory.read_write, Memory.read_write]
  split
  next => rfl
  next hne => exact h.block a ha (State.valid_of_writeByte (b := b) ha hv hne)

theorem SameValues.writeWord (h : SameValues s₁ s₂) (A : Addr) (v : Word) :
    SameValues (s₁.writeWord A v) (s₂.writeWord A v) := by
  obtain ⟨hBV, _⟩ := h.control
  refine h.load (congrArg (· ||| _) hBV) fun a ha hv => ?_
  refine (s₁.read_writeWord A v a).trans (Eq.trans ?_ (s₂.read_writeWord A v a).symm)
  split
  next => rfl
  next hout => exact h.block a ha (State.valid_of_writeWord (v := v) ha hv hout)

theorem SameValues.close (h : SameValues s₁ s₂) (hp : s₁.PHASE ≠ .uninit) :
    SameValues { s₁ with PHASE := .finalized } { s₂ with PHASE := .finalized } := by
  obtain ⟨hBV, _, hcontrol⟩ := h.control
  exact { h with control := ⟨hBV, rfl, hcontrol⟩, digest := fun _ => h.digest hp }

/-- `NEXT` writes `W[0..15]` and `a..h` from a complete block and from `H`, which both states agree on. -/
theorem SameValues.takeBlock (h : SameValues s₁ s₂) (hp : s₁.PHASE ≠ .uninit) (hbv : s₁.BV = 0xFFFFFFFFFFFFFFFF) :
    SameValues s₁.takeBlock s₂.takeBlock := by
  obtain ⟨_, hP, _, _, herr⟩ := h.control
  have hbyte (a : Nat) (ha : a < 64) : s₁.BLK.byte a = s₂.BLK.byte a := by
    rw [Memory.byte, Memory.byte, h.block a ha (valid_of_complete hbv ha)]
  refine { h with
    control := ⟨rfl, hP, rfl, rfl, herr⟩
    block := fun a _ hv => by simp at hv
    working := fun _ => congrArg Working.ofH (h.digest hp)
    expanding := fun _ i hi hlt => ?_
    mixing := fun hq => by simp at hq }
  replace hlt : i < 16 := hlt
  simp only [State.takeBlock_W]
  rw [parseInto_low _ _ i hlt, parseInto_low _ _ i hlt, blockWord, blockWord, hbyte _ (by omega), hbyte _ (by omega),
    hbyte _ (by omega), hbyte _ (by omega)]

theorem SameValues.withDatapath (h : SameValues s₁ s₂) {W₁ W₂ : Vector Word 64} {v₁ v₂ : Working} (hv : v₁ = v₂)
    (hexpand : s₁.SEQ = .expand → ∀ i (hi : i < 64), i < s₁.t.val → W₁[i] = W₂[i])
    (hmix : s₁.SEQ = .round ∨ s₁.SEQ = .fold → W₁ = W₂) :
    SameValues { s₁ with W := W₁, v := v₁ } { s₂ with W := W₂, v := v₂ } :=
  { h with working := fun _ => hv, expanding := hexpand, mixing := hmix }

/-- An advance of the counter keeps the agreement when the word of `W` at the counter agrees too. -/
theorem SameValues.advance (h : SameValues s₁ s₂) (after : Seq) (hbusy : s₁.SEQ ≠ .idle)
    (hW : ∀ i (hi : i < 64), i ≤ s₁.t.val → s₁.W[i] = s₂.W[i]) : SameValues (s₁.advance after) (s₂.advance after) := by
  obtain ⟨hBV, hP, hq, ht, hE, hC⟩ := h.control
  refine ⟨?control, by simpa using h.port, by simpa using h.block, by simpa using h.digest, ?working, ?expanding,
    ?mixing⟩
  case control => simp [State.advance_SEQ, State.advance_t, hBV, hP, hq, ht, hE, hC]
  case working => simpa using fun _ => h.working hbusy
  case expanding =>
    intro _ i hi hlt
    simp only [State.advance_W]
    rcases s₁.advance_cases after with ⟨_, _, ht'⟩ | ⟨_, _, ht'⟩
    · exact hW i hi (by omega)
    · rw [ht'] at hlt
      exact absurd hlt (Nat.not_lt_zero i)
  case mixing =>
    intro hround
    simp only [State.advance_W]
    rcases s₁.advance_cases after with ⟨_, hq', _⟩ | ⟨ht63, _, _⟩
    · exact h.mixing (hq' ▸ hround)
    · exact Vector.ext fun i hi => hW i hi (by rw [ht63]; exact Nat.le_of_lt_succ hi)

/-- The recurrence of R151 reads words below its index only. -/
theorem scheduleWord_congr {W₁ W₂ : Vector Word 64} {i : Nat} (hi : 16 ≤ i ∧ i < 64)
    (hW : ∀ j (hj : j < 64), j < i → W₁[j] = W₂[j]) : scheduleWord W₁ i hi = scheduleWord W₂ i hi := by
  rw [scheduleWord, scheduleWord, hW (i - 16) _ (by omega), hW (i - 15) _ (by omega), hW (i - 7) _ (by omega),
    hW (i - 2) _ (by omega)]

theorem SameValues.fold (h : SameValues s₁ s₂) (hp : s₁.PHASE ≠ .uninit) (hbusy : s₁.SEQ ≠ .idle) :
    SameValues { s₁ with H := foldInto s₁.H s₁.v, PHASE := .processing, SEQ := .idle, t := 0 }
      { s₂ with H := foldInto s₂.H s₂.v, PHASE := .processing, SEQ := .idle, t := 0 } := by
  obtain ⟨hBV, _, _, _, herr⟩ := h.control
  exact { h with
    control := ⟨hBV, rfl, rfl, rfl, herr⟩
    digest := fun _ => by simp only [h.digest hp, h.working hbusy]
    working := fun hq => absurd rfl hq
    expanding := fun hq => by simp at hq
    mixing := fun hq => by simp at hq }

end Sys2Proof.Machine
end

section
/-! Two states of a run that agree on what holds a value step alike. -/

namespace Sys2Proof.Machine

/-- Whatever next state the first result is, the second is one too, and the two agree on what holds a value. -/
def ResultsAgree (r₁ r₂ : Result) : Prop :=
  ∀ s₁', r₁ = .next s₁' → ∃ s₂', r₂ = .next s₂' ∧ SameValues s₁' s₂'

theorem ResultsAgree.next {s₁ s₂ : State} (h : SameValues s₁ s₂) : ResultsAgree (.next s₁) (.next s₂) := by
  rintro _ ⟨⟩
  exact ⟨s₂, rfl, h⟩

theorem hostTurn_held {s : State} {c : Command} {rest : List Command} (hp : s.pending = c :: rest)
    (hr : cmdReady s.SEQ c.cmd = false) : hostTurn s = .next s := by
  simp [hostTurn, hp, hr]

theorem sequencerTurn_illegal {s : State} {why : Illegal} (h : decodeSequencer s.SEQ.code = .illegal why) :
    sequencerTurn s = .next s := by
  rw [sequencerTurn, h]

theorem exec_expand_of_le {s : State} (h : 16 ≤ s.t.val) :
    exec .expand s =
      .next ({ s with W := s.W.set s.t.val (scheduleWord s.W s.t.val ⟨h, s.t.isLt⟩) }.advance .round) :=
  dif_pos h

section
variable {s₁ s₂ : State} (h : SameValues s₁ s₂)
include h

theorem SameValues.STATUS_eq : s₁.STATUS = s₂.STATUS := by
  obtain ⟨_, hP, hq, _, hE, hC⟩ := h.control
  simp only [State.STATUS, State.BUSY, hP, hq, hE, hC]

/-- The checks of R131 read the control state only. -/
theorem SameValues.firstFault_eq (i : Instr) : firstFault i s₁ = firstFault i s₂ := by
  obtain ⟨hBV, hP, _⟩ := h.control
  have hblock : s₁.blockComplete = s₂.blockComplete := by rw [State.blockComplete, State.blockComplete, hBV]
  rw [firstFault, firstFault, hP, hblock]

theorem SameValues.checked {i : Instr} {e₁ e₂ : Result} (he : firstFault i s₁ = none → ResultsAgree e₁ e₂) :
    ResultsAgree (checked i s₁ e₁) (checked i s₂ e₂) := by
  unfold Machine.checked
  rw [← h.firstFault_eq i]
  cases hf : firstFault i s₁ with
  | none => exact he hf
  | some c => exact .next (h.raise c)

/-- A read of the digest is let through in `FINALIZED` only, where `H` holds a value. -/
theorem SameValues.read {i : Instr} (hi : ∀ p, permitted i p = (p == .finalized)) (view : Vector Word 8 → Word) :
    ResultsAgree (Machine.checked i s₁ (.next (s₁.respond (view s₁.H))))
      (Machine.checked i s₂ (.next (s₂.respond (view s₂.H)))) := by
  refine h.checked fun hf => ?_
  obtain ⟨_, _, hperm, _⟩ := (firstFault_none_iff _ _).1 hf
  have hp : s₁.PHASE = .finalized := by simpa [hi] using hperm
  rw [h.digest (by simp [hp])]
  exact .next (h.respond _)

theorem SameValues.expand (hq : s₁.SEQ = .expand) (hs : 16 ≤ s₁.t.val) :
    ResultsAgree (exec .expand s₁) (exec .expand s₂) := by
  obtain ⟨_, _, _, ht, _⟩ := h.control
  have hword : scheduleWord s₁.W s₁.t.val ⟨hs, s₁.t.isLt⟩ = scheduleWord s₂.W s₁.t.val ⟨hs, s₁.t.isLt⟩ :=
    scheduleWord_congr _ (h.expanding hq)
  rw [exec_expand_of_le hs, exec_expand_of_le (ht ▸ hs)]
  simp only [← ht, hword]
  generalize scheduleWord s₂.W s₁.t.val _ = w
  have hset (i : Nat) (hi : i < 64) (hle : i ≤ s₁.t.val) :
      (s₁.W.set s₁.t.val w)[i] = (s₂.W.set s₁.t.val w)[i] := by
    rw [Vector.getElem_set, Vector.getElem_set]
    split
    next => rfl
    next hne => exact h.expanding hq i hi (by omega)
  have hbusy : s₁.SEQ ≠ .idle := by simp [hq]
  have hwritten := h.withDatapath (W₁ := s₁.W.set s₁.t.val w) (W₂ := s₂.W.set s₁.t.val w) (h.working hbusy)
    (fun _ i hi hlt => hset i hi hlt.le) (fun hmix => by simp [hq] at hmix)
  exact .next (by simpa only [← ht] using hwritten.advance .round hbusy hset)

theorem SameValues.round (hq : s₁.SEQ = .round) : ResultsAgree (exec .round s₁) (exec .round s₂) := by
  obtain ⟨_, _, _, ht, _⟩ := h.control
  have hbusy : s₁.SEQ ≠ .idle := by simp [hq]
  have hW : s₁.W = s₂.W := h.mixing (.inl hq)
  have hv : roundFn s₁.v K[s₁.t] s₁.W[s₁.t] = roundFn s₂.v K[s₂.t] s₂.W[s₂.t] := by
    simp only [ht, hW, h.working hbusy]
  exact .next ((h.withDatapath hv h.expanding h.mixing).advance .fold hbusy fun i hi _ => by simp only [hW])

/-- An instruction that the port or the sequencer lets run answers alike. -/
theorem SameValues.exec {i : Instr} (hinv₁ : Inv s₁) (hinv₂ : Inv s₂) (hi : Admitted i s₁.SEQ) :
    ResultsAgree (exec i s₁) (exec i s₂) := by
  cases i with
  | init => exact h.checked (i := .init) fun _ => .next (h.start.respond 0)
  | wrw A v => exact h.checked fun _ => .next ((h.writeWord A v).respond 0)
  | wrb A b => exact h.checked fun _ => .next ((h.writeByte A b).respond 0)
  | next =>
    refine h.checked fun hf => ?_
    obtain ⟨hp, hbv⟩ := of_firstFault_next hf
    obtain ⟨hBV, _⟩ := h.control
    rw [if_pos (hinv₁.valued.full hbv), if_pos (hinv₂.valued.full (hBV ▸ hbv))]
    exact .next ((h.takeBlock (by rcases hp with hp | hp <;> simp [hp]) hbv).respond 0)
  | final => exact h.checked fun hf => .next ((h.close (by simp [PHASE_of_firstFault_final hf])).respond 0)
  | rdw A => exact h.read (fun _ => rfl) fun H => digWord H (digAddr A)
  | rdb A => exact h.read (fun _ => rfl) fun H => (digByte H (digAddr A)).setWidth 32
  | rdx A => exact h.read (fun _ => rfl) fun H => (hexChar H A).setWidth 32
  | rds =>
    have hres : SameValues (s₁.respond s₁.STATUS) (s₂.respond s₂.STATUS) := h.STATUS_eq ▸ h.respond _
    exact h.checked (i := .rds) fun _ => .next hres
  | expand => exact h.expand hi (hinv₁.counterExpand hi)
  | round => exact h.round hi
  | fold =>
    have hbusy : s₁.SEQ ≠ .idle := by rw [show s₁.SEQ = .fold from hi]; nofun
    exact .next (h.fold (by rcases (hinv₁.busyPhase hbusy).1 with hp | hp <;> simp [hp]) hbusy)

theorem SameValues.accept {c : Command} (hinv₁ : Inv s₁) (hinv₂ : Inv s₂) (hr : cmdReady s₁.SEQ c.cmd = true) :
    ResultsAgree (accept c s₁) (accept c s₂) := by
  unfold Machine.accept
  cases hd : decodeCommand c.cmd c.wdata with
  | legal i => exact h.exec hinv₁ hinv₂ (admitted_of_cmdReady hr hd)
  | illegal _ => exact .next (h.raise _)

theorem SameValues.hostTurn (hinv₁ : Inv s₁) (hinv₂ : Inv s₂) : ResultsAgree (hostTurn s₁) (hostTurn s₂) := by
  obtain ⟨_, _, hq, _⟩ := h.control
  obtain ⟨hpending, _⟩ := h.port
  cases hp : s₁.pending with
  | nil =>
    rw [hostTurn_nil hp, hostTurn_nil (hpending ▸ hp)]
    exact .next h
  | cons c rest =>
    cases hr : cmdReady s₁.SEQ c.cmd with
    | false =>
      rw [hostTurn_held hp hr, hostTurn_held (hpending ▸ hp) (hq ▸ hr)]
      exact .next h
    | true =>
      rw [hostTurn_ready hp hr, hostTurn_ready (hpending ▸ hp) (hq ▸ hr)]
      exact (h.withPending rest).accept (hinv₁.port rest s₁.schedule s₁.out) (hinv₂.port rest s₂.schedule s₂.out) hr

theorem SameValues.sequencerTurn (hinv₁ : Inv s₁) (hinv₂ : Inv s₂) :
    ResultsAgree (sequencerTurn s₁) (sequencerTurn s₂) := by
  obtain ⟨_, _, hq, _⟩ := h.control
  cases hd : decodeSequencer s₁.SEQ.code with
  | legal i =>
    rw [sequencerTurn_legal hd, sequencerTurn_legal (hq ▸ hd)]
    exact h.exec hinv₁ hinv₂ (admitted_of_decodeSequencer hd)
  | illegal why =>
    rw [sequencerTurn_illegal hd, sequencerTurn_illegal (hq ▸ hd)]
    exact .next h

theorem SameValues.runTurn (hinv₁ : Inv s₁) (hinv₂ : Inv s₂) (turn : Turn) :
    ResultsAgree (runTurn turn s₁) (runTurn turn s₂) := by
  cases turn with
  | host => exact h.hostTurn hinv₁ hinv₂
  | poll => exact h.accept (c := ⟨rdsWord, 0⟩) hinv₁ hinv₂ ((cmdReady_iff _ _).2 (.inr rfl))
  | withdraw =>
    obtain ⟨hpending, _⟩ := h.port
    exact .next (by simpa only [hpending] using h.withPending s₁.pending.tail)
  | reset => exact .next h.resetEvent
  | sequencer => exact h.sequencerTurn hinv₁ hinv₂

/-- Whose turn it is depends on the port and on `SEQ` only. -/
theorem SameValues.nextTurn_eq : nextTurn s₁ = nextTurn s₂ := by
  obtain ⟨_, _, hq, _⟩ := h.control
  obtain ⟨hpending, hschedule, _⟩ := h.port
  simp only [nextTurn, eagerTurn, hpending, hschedule, hq]

end

/-- Settles O42: the same turn, run from states that begin the step alike. -/
theorem valuelessRegistersAreNeverObserved : Obligations.ValuelessRegistersAreNeverObserved := by
  unfold Obligations.ValuelessRegistersAreNeverObserved
  intro s₁ s₂ s₁' hinv₁ hinv₂ h hstep
  have begun {s : State} (hinv : Inv s) : Inv s.beginStep := hinv.port s.pending s.schedule.tail none
  rw [step_eq_runTurn rfl] at hstep
  rw [step_eq_runTurn h.nextTurn_eq.symm]
  exact h.beginStep.runTurn (begun hinv₁) (begun hinv₂) _ s₁' hstep

end Sys2Proof.Machine
end

section
/-! The constant tables are fractional parts of roots of primes, stated with integers. -/

namespace Sys2Proof.Machine

/-- `p` is at least 2, and no number from 2 on that is less than both `b` and `p` divides it. -/
def noDivisorBelow (b p : Nat) : Bool :=
  2 ≤ p && (List.range b).all fun d => d < 2 || p ≤ d || p % d != 0

/-- The trial division of `primesBelow` finds the primes. -/
theorem primesBelow_eq_filter_prime (n : Nat) : primesBelow n = (List.range n).filter fun p => Nat.Prime p := by
  refine List.filter_congr fun p _ => Bool.eq_iff_iff.2 ?_
  rw [decide_eq_true_iff, Nat.prime_def_lt']
  simp only [Bool.and_eq_true, decide_eq_true_eq, List.all_eq_true, List.mem_range, Bool.or_eq_true, bne_iff_ne,
    Nat.dvd_iff_mod_eq_zero]
  grind

/-- Below `b * b` trial division by the numbers below `b` is enough: a proper divisor is at most the square root. -/
theorem noDivisorBelow_iff_prime {b p : Nat} (hp : p < b * b) : noDivisorBelow b p = true ↔ p.Prime := by
  have hspec : noDivisorBelow b p = true ↔ 2 ≤ p ∧ ∀ m < b, 2 ≤ m → m < p → ¬ m ∣ p := by
    simp only [noDivisorBelow, Bool.and_eq_true, decide_eq_true_eq, List.all_eq_true, List.mem_range, Bool.or_eq_true,
      bne_iff_ne, Nat.dvd_iff_mod_eq_zero]
    grind
  rw [hspec]
  constructor
  · rintro ⟨h2, hnone⟩
    exact Nat.prime_def_le_sqrt.2 ⟨h2, fun m hm hle =>
      hnone m (hle.trans_lt (Nat.sqrt_lt.2 hp)) hm (hle.trans_lt (Nat.sqrt_lt_self h2))⟩
  · intro hprime
    obtain ⟨h2, hnone⟩ := Nat.prime_def_lt'.1 hprime
    exact ⟨h2, fun m _ => hnone m⟩

theorem primesBelow_eq_filter {b n : Nat} (h : n ≤ b * b) :
    primesBelow n = (List.range n).filter (noDivisorBelow b) := by
  rw [primesBelow_eq_filter_prime]
  refine List.filter_congr fun p hp => Bool.eq_iff_iff.2 ?_
  rw [decide_eq_true_iff, noDivisorBelow_iff_prime ((List.mem_range.1 hp).trans_le h)]

/-- The first 64 primes. -/
def firstPrimes : List Nat :=
  [2, 3, 5, 7, 11, 13, 17, 19, 23, 29, 31, 37, 41, 43, 47, 53, 59, 61, 67, 71, 73, 79, 83, 89, 97, 101, 103, 107, 109,
    113, 127, 131, 137, 139, 149, 151, 157, 163, 167, 173, 179, 181, 191, 193, 197, 199, 211, 223, 227, 229, 233, 239,
    241, 251, 257, 263, 269, 271, 277, 281, 283, 293, 307, 311]

theorem primesBelow_20 : primesBelow 20 = firstPrimes.take 8 := by decide

theorem primesBelow_312 : primesBelow 312 = firstPrimes := by
  rw [primesBelow_eq_filter (b := 18) (by decide)]
  decide

/-- `w` is the first 32 bits of the fractional part of the `k`-th root of `p`: with a whole part `q` it is that root in
units of 2^-32, rounded down. -/
def IsRootFraction (k p : Nat) (w : Word) : Prop :=
  ∃ q < 8, (q * 2 ^ 32 + w.toNat) ^ k ≤ p * 2 ^ (32 * k) ∧ p * 2 ^ (32 * k) < (q * 2 ^ 32 + w.toNat + 1) ^ k

theorem IsRootFraction.exists_root {k p : Nat} {w : Word} (h : IsRootFraction k p w) :
    ∃ r, r ^ k ≤ p * 2 ^ (32 * k) ∧ p * 2 ^ (32 * k) < (r + 1) ^ k ∧ w.toNat = r % 2 ^ 32 := by
  obtain ⟨q, _, hle, hlt⟩ := h
  exact ⟨q * 2 ^ 32 + w.toNat, hle, hlt, by rw [Nat.mul_add_mod', Nat.mod_eq_of_lt w.isLt]⟩

theorem isRootFraction_IV : ∀ i : Fin 8, IsRootFraction 2 (firstPrimes.take 8)[i] IV[i] := by
  unfold IsRootFraction
  decide

theorem isRootFraction_K : ∀ i : Fin 64, IsRootFraction 3 firstPrimes[i] K[i] := by
  unfold IsRootFraction
  decide

/-- Settles O46: the primes are found by `primesBelow_20` and `primesBelow_312`, and each entry of the tables is the
fraction of its prime's root. -/
theorem tablesAreFractionalPartsOfRoots : Obligations.TablesAreFractionalPartsOfRoots := by
  unfold Obligations.TablesAreFractionalPartsOfRoots
  rw [primesBelow_20, primesBelow_312]
  exact ⟨fun i hi => ⟨_, List.getElem?_eq_getElem hi, (isRootFraction_IV ⟨i, hi⟩).exists_root⟩,
    fun i hi => ⟨_, List.getElem?_eq_getElem hi, (isRootFraction_K ⟨i, hi⟩).exists_root⟩⟩

end Sys2Proof.Machine
end

section
/-! The state after reset. -/

namespace Sys2Proof.Machine

/-- Settles O11: every register is as R51 lists it, no byte was written, and `RDS` passes its checks and returns
`STATUS`, which is 0 there. -/
theorem resetStateHasTheListedValues : Obligations.ResetStateHasTheListedValues := by
  unfold Obligations.ResetStateHasTheListedValues
  have hstatus : State.reset.STATUS = 0 := by decide
  have hrds : exec .rds State.reset = .next (State.reset.respond State.reset.STATUS) := rfl
  exact ⟨rfl, rfl, rfl, rfl, rfl, rfl, Memory.read_nil, by rw [hrds, hstatus]; rfl⟩

end Sys2Proof.Machine
end

section
/-! What the block load commands come to where their checks let them through, and the word write as four byte writes
(R62, R67). -/

namespace Sys2Proof.Machine

/-- A command whose checks pass has its own effect (R131). -/
theorem checked_of_firstFault_none {i : Instr} {s : State} (h : firstFault i s = none) (effect : Result) :
    checked i s effect = effect := by
  rw [checked, h]

theorem exec_wrb_of_takesBlocks {s : State} (A : Addr) (b : Byte) (hp : TakesBlocks s.PHASE) :
    exec (.wrb A b) s = .next ((s.writeByte A b).respond 0) :=
  checked_of_firstFault_none
    ((firstFault_none_iff (.wrb A b) s).2 ⟨rfl, rfl, s.PHASE.takesBlocks_iff.2 hp, nofun⟩) _

theorem exec_wrw_of_takesBlocks {s : State} {A : Addr} (v : Word) (hA : A.toNat % 4 = 0) (hp : TakesBlocks s.PHASE) :
    exec (.wrw A v) s = .next ((s.writeWord A v).respond 0) :=
  checked_of_firstFault_none
    ((firstFault_none_iff (.wrw A v) s).2
      ⟨rfl, by simp [misaligned, aligned, hA], s.PHASE.takesBlocks_iff.2 hp, nofun⟩) _

/-- The bytes of an aligned word stand below the end of the block, so their addresses do not wrap. -/
theorem toNat_add_of_aligned {A : Addr} (hA : A.toNat % 4 = 0) {k : Addr} (hk : k.toNat < 4) :
    (A + k).toNat = A.toNat + k.toNat := by
  have hlt : A.toNat < 64 := A.isLt
  rw [BitVec.toNat_add, Nat.mod_eq_of_lt (by omega)]

/-- The valid bits of a word are those of its four bytes. -/
theorem wordMask_eq_byteMasks (n : Nat) :
    0b1111#64 <<< n = 1#64 <<< n ||| 1#64 <<< (n + 1) ||| 1#64 <<< (n + 2) ||| 1#64 <<< (n + 3) := by
  rw [show 0b1111#64 = 1#64 ||| 1#64 <<< 1 ||| 1#64 <<< 2 ||| 1#64 <<< 3 from rfl]
  simp only [BitVec.shiftLeft_or_distrib, ← BitVec.shiftLeft_add, Nat.add_comm n]

/-- `MemWrite(BLK, A, 4, v)` is the four writes `MemWrite(BLK, A + k, 1, byte_k(v))` (R62). -/
theorem State.writeWord_eq_writeBytes (s : State) {A : Addr} (v : Word) (hA : A.toNat % 4 = 0) :
    s.writeWord A v =
      (((s.writeByte A (byteOf 0 v)).writeByte (A + 1) (byteOf 1 v)).writeByte (A + 2) (byteOf 2 v)).writeByte (A + 3)
        (byteOf 3 v) := by
  have h1 : (A + 1).toNat = A.toNat + 1 := toNat_add_of_aligned hA (by decide)
  have h2 : (A + 2).toNat = A.toNat + 2 := toNat_add_of_aligned hA (by decide)
  have h3 : (A + 3).toNat = A.toNat + 3 := toNat_add_of_aligned hA (by decide)
  simp only [State.writeWord, State.writeByte, h1, h2, h3, wordMask_eq_byteMasks, BitVec.or_assoc]

/-- Settles O18: in a phase that takes blocks every write passes its checks, and the four of them make the word write
(`State.writeWord_eq_writeBytes`). -/
theorem wordWriteIsFourByteWrites : Obligations.WordWriteIsFourByteWrites := by
  unfold Obligations.WordWriteIsFourByteWrites
  intro A v s hA hp
  refine ⟨_, _, _, _, exec_wrb_of_takesBlocks A _ hp, exec_wrb_of_takesBlocks (A + 1) _ hp,
    exec_wrb_of_takesBlocks (A + 2) _ hp, exec_wrb_of_takesBlocks (A + 3) _ hp, ?_⟩
  rw [exec_wrw_of_takesBlocks v hA hp, State.writeWord_eq_writeBytes s v hA]
  rfl

end Sys2Proof.Machine
end

section
/-! The frame of the engine steps: what they leave alone, and what they do not read. -/

namespace Sys2Proof.Machine

/-- An advance writes `SEQ` and `t` only. -/
theorem State.advance_frame (s : State) (after : Seq) :
    s.advance after = { s with SEQ := (s.advance after).SEQ, t := (s.advance after).t } := by
  unfold State.advance
  split <;> rfl

/-- An advance reads neither the block buffer nor the schedule. -/
theorem State.advance_withBlockAndSchedule (s : State) (after : Seq) (m : Memory) (bv : BitVec 64)
    (turns : List Turn) :
    { s with BLK := m, BV := bv, schedule := turns }.advance after =
      { s.advance after with BLK := m, BV := bv, schedule := turns } := by
  unfold State.advance
  dsimp only
  split <;> rfl

/-- One of the three steps of the engine (R102). -/
abbrev IsEngineStep (i : Instr) : Prop :=
  i = .expand ∨ i = .round ∨ i = .fold

theorem isEngineStep_of_decodeSequencer {q : Seq} {i : Instr} (h : decodeSequencer q.code = .legal i) :
    IsEngineStep i := by
  rcases (decodeSequencer_code q i).1 h with ⟨_, hi⟩ | ⟨_, hi⟩ | ⟨_, hi⟩
  · exact .inl hi
  · exact .inr (.inl hi)
  · exact .inr (.inr hi)

/-- An engine step has no checks to fail: it answers exactly its effect. -/
theorem exec_engine_iff {i : Instr} {s s' : State} (hi : IsEngineStep i) :
    exec i s = .next s' ↔ Effect i s s' := by
  constructor
  · intro h
    have hpasses : firstFault i s = none := by rcases hi with rfl | rfl | rfl <;> rfl
    rcases exec_next h with ⟨c, hc, _⟩ | ⟨_, he⟩
    · rw [hpasses] at hc; cases hc
    · exact he
  · intro h
    rcases hi with rfl | rfl | rfl
    · obtain ⟨ht, rfl⟩ := h; exact exec_expand_of_le ht
    · obtain rfl := h; rfl
    · obtain rfl := h; rfl

/-- What an engine step may write (R72). -/
theorem Effect.engine_frame {i : Instr} {s s' : State} (hi : IsEngineStep i) (h : Effect i s s') :
    s' = { s with W := s'.W, v := s'.v, t := s'.t, SEQ := s'.SEQ, H := s'.H, PHASE := s'.PHASE } := by
  rcases hi with rfl | rfl | rfl
  · obtain ⟨_, rfl⟩ := h
    rw [State.advance_frame]
  · obtain rfl := h
    rw [State.advance_frame]
  · obtain rfl := h
    rfl

/-- An engine step reads neither the block buffer (R72) nor the schedule. -/
theorem Effect.engine_withBlockAndSchedule {i : Instr} {s s' : State} (hi : IsEngineStep i) (h : Effect i s s')
    (m : Memory) (bv : BitVec 64) (turns : List Turn) :
    Effect i { s with BLK := m, BV := bv, schedule := turns } { s' with BLK := m, BV := bv, schedule := turns } := by
  rcases hi with rfl | rfl | rfl
  · obtain ⟨ht, rfl⟩ := h
    exact ⟨ht, (State.advance_withBlockAndSchedule _ .round m bv turns).symm⟩
  · obtain rfl := h
    exact (State.advance_withBlockAndSchedule _ .fold m bv turns).symm
  · obtain rfl := h
    rfl

/-- Settles O23: an engine step is its effect, whose frame and independence of the block are the two lemmas above. -/
theorem engineStepsTouchOnlyTheDatapath : Obligations.EngineStepsTouchOnlyTheDatapath := by
  unfold Obligations.EngineStepsTouchOnlyTheDatapath
  intro i s s' hi h
  have he : Effect i s s' := (exec_engine_iff hi).1 h
  have hframe := he.engine_frame hi
  refine ⟨hframe, fun hfold => ?writers, fun m bv => (exec_engine_iff hi).2 ?block⟩
  case writers =>
    have hinit : i ≠ .init := by rcases hi with rfl | rfl | rfl <;> nofun
    have hfinal : i ≠ .final := by rcases hi with rfl | rfl | rfl <;> nofun
    exact ⟨he.H_eq hinit hfold, he.PHASE_eq hinit hfinal hfold⟩
  case block =>
    have hschedule : s'.schedule = s.schedule := by rw [hframe]
    simpa only [← hschedule] using he.engine_withBlockAndSchedule hi m bv s.schedule

end Sys2Proof.Machine
end

section
/-! Polls between the turns of the sequencer: leaving them out leads to the same state but for the response lines. -/

namespace Sys2Proof.Machine

/-- `RDS` is permitted in every phase and returns `STATUS` (R137). -/
theorem step_poll_eq {s : State} (ht : nextTurn s = .poll) :
    step s = .next { s with schedule := s.schedule.tail, out := some ⟨0, s.STATUS⟩ } :=
  (step_poll ht).trans rfl

theorem nextTurn_of_schedule_cons {s : State} {turn : Turn} {turns : List Turn} (h : s.schedule = turn :: turns) :
    nextTurn s = turn := by
  rw [nextTurn, h]

/-- The sequencer's turn writes neither the schedule nor the response lines, and does the same whatever the schedule
is. -/
theorem sequencerTurn_frame {s s' : State} (h : sequencerTurn s = .next s') :
    s'.schedule = s.schedule ∧ s'.out = s.out ∧
      ∀ turns, sequencerTurn { s with schedule := turns } = .next { s' with schedule := turns } := by
  cases hd : decodeSequencer s.SEQ.code with
  | illegal why =>
    obtain rfl : s = s' := by simpa [sequencerTurn_illegal hd] using h
    exact ⟨rfl, rfl, fun turns => sequencerTurn_illegal hd⟩
  | legal i =>
    have hi : IsEngineStep i := isEngineStep_of_decodeSequencer hd
    have he : Effect i s s' := (exec_engine_iff hi).1 ((sequencerTurn_legal hd).symm.trans h)
    have hframe := he.engine_frame hi
    have hBLK : s'.BLK = s.BLK := by rw [hframe]
    have hBV : s'.BV = s.BV := by rw [hframe]
    refine ⟨by rw [hframe], by rw [hframe], fun turns => ?_⟩
    rw [sequencerTurn_legal (s := { s with schedule := turns }) hd, exec_engine_iff hi]
    simpa only [← hBLK, ← hBV] using he.engine_withBlockAndSchedule hi s.BLK s.BV turns

/-- A sequencer's turn out of a schedule gives no response, and is the same turn before any other turns and after any
other response. -/
theorem step_sequencer_reschedule {s s₁ : State} {turns : List Turn} (hs : s.schedule = .sequencer :: turns)
    (h : step s = .next s₁) (turns' : List Turn) :
    s₁.schedule = turns ∧ s₁.out = none ∧
      step { s with schedule := .sequencer :: turns', out := none } =
        .next { s₁ with schedule := turns', out := none } := by
  have hturn : sequencerTurn s.beginStep = .next s₁ := (step_eq_runTurn (nextTurn_of_schedule_cons hs)).symm.trans h
  obtain ⟨hschedule, hout, hany⟩ := sequencerTurn_frame hturn
  replace hout : s₁.out = none := hout
  refine ⟨by rw [hschedule, State.beginStep_schedule, hs]; rfl, hout, ?_⟩
  calc step { s with schedule := .sequencer :: turns', out := none }
      = sequencerTurn { s.beginStep with schedule := turns' } := rfl
    _ = .next { s₁ with schedule := turns' } := hany turns'
    _ = .next { s₁ with schedule := turns', out := none } := by rw [← hout]

/-- A schedule of polls and sequencer's turns: one OK response for each poll, and the end state, but for the response
lines, of the sequencer's turns alone. -/
theorem runs_without_polls (turns rest : List Turn) {s s' : State} {rs : List Response}
    (hturns : ∀ turn ∈ turns, turn = .poll ∨ turn = .sequencer) (hs : s.schedule = turns ++ rest)
    (hr : Runs turns.length s rs s') :
    rs.length = turns.count .poll ∧ (∀ r ∈ rs, r.resp = 0) ∧
      ∃ o : Option Response, Runs (turns.count .sequencer)
        { s with schedule := List.replicate (turns.count .sequencer) .sequencer ++ rest, out := none } []
        { s' with out := o } := by
  induction turns generalizing s rs with
  | nil =>
    obtain ⟨rfl, rfl⟩ := hr
    exact ⟨rfl, nofun, none, rfl, by rw [← show s'.schedule = rest from hs]; rfl⟩
  | cons turn turns ih =>
    obtain ⟨s₁, rs₁, hstep, rfl, hr₁⟩ := hr
    have hturns₁ : ∀ turn ∈ turns, turn = .poll ∨ turn = .sequencer := fun t ht =>
      hturns t (List.mem_cons_of_mem _ ht)
    rcases hturns turn List.mem_cons_self with rfl | rfl
    · obtain rfl : { s with schedule := s.schedule.tail, out := some ⟨0, s.STATUS⟩ } = s₁ := by
        simpa [step_poll_eq (nextTurn_of_schedule_cons hs)] using hstep
      obtain ⟨hlength, hok, o, hrun⟩ := ih hturns₁ (by rw [hs]; rfl) hr₁
      refine ⟨by simpa using hlength, List.forall_mem_cons.2 ⟨rfl, hok⟩, o, ?_⟩
      rw [List.count_cons_of_ne (by decide)]
      exact hrun
    · obtain ⟨hschedule, hout, hstep'⟩ := step_sequencer_reschedule hs hstep
        (List.replicate (turns.count .sequencer) .sequencer ++ rest)
      obtain ⟨hlength, hok, o, hrun⟩ := ih hturns₁ hschedule hr₁
      rw [hout, List.count_cons_self, List.count_cons_of_ne (by decide)]
      exact ⟨hlength, hok, o, _, [], hstep', rfl, hrun⟩

/-- Settles O40: a poll is `RDS` (`step_poll_eq`), and polls may be left out of a schedule (`runs_without_polls`). -/
theorem pollsDoNotDisturbTheBlock : Obligations.PollsDoNotDisturbTheBlock := by
  unfold Obligations.PollsDoNotDisturbTheBlock
  exact ⟨fun _ => step_poll_eq, fun turns rest _ _ _ => runs_without_polls turns rest⟩

end Sys2Proof.Machine
end

section
/-! The fields of a command word: what they are for a word put together from them, what the masks of the table keep of
them, and what the rows of the table decode to (R90, R95, R96). -/

namespace Sys2Proof.Machine

@[simp] theorem opField_cmdWord (op : BitVec 4) (A : Addr) : opField (cmdWord op A) = op :=
  (BitVec.extractLsb'_append_eq_of_le (by decide)).trans BitVec.extractLsb'_append_eq_left

@[simp] theorem zeroField_cmdWord (op : BitVec 4) (A : Addr) : zeroField (cmdWord op A) = 0 :=
  (BitVec.extractLsb'_append_eq_of_le (by decide)).trans BitVec.extractLsb'_append_eq_right

@[simp] theorem addrField_cmdWord (op : BitVec 4) (A : Addr) : addrField (cmdWord op A) = A :=
  BitVec.extractLsb'_append_eq_right

/-- A word is made of its three fields (R90). -/
theorem append_fields (c : CmdWord) : opField c ++ zeroField c ++ addrField c = c :=
  calc opField c ++ zeroField c ++ addrField c
      = c.extractLsb' 6 10 ++ addrField c :=
        congrArg (· ++ addrField c) (BitVec.extractLsb'_append_extractLsb'_eq_extractLsb' (len₁ := 6) (len₂ := 4) rfl)
    _ = c.extractLsb' 0 16 := BitVec.extractLsb'_append_extractLsb'_eq_extractLsb' (len₁ := 6) (len₂ := 10) rfl
    _ = c := BitVec.extractLsb'_eq_self

/-- The value of a word, from its fields. -/
theorem toNat_eq_fields (c : CmdWord) :
    c.toNat = 4096 * (opField c).toNat + 64 * (zeroField c).toNat + (addrField c).toNat := by
  have hc : c.toNat < 2 ^ 16 := c.isLt
  simp only [opField, zeroField, addrField, BitVec.extractLsb'_toNat, Nat.shiftRight_eq_div_pow]
  omega

theorem toNat_cmdWord (op : BitVec 4) (A : Addr) : (cmdWord op A).toNat = 4096 * op.toNat + A.toNat := by
  rw [toNat_eq_fields, opField_cmdWord, zeroField_cmdWord, addrField_cmdWord]
  rfl

/-- The mask `0xFFC0` clears the address and keeps the other two fields. -/
theorem and_ffc0 (c : CmdWord) : c &&& 0xFFC0 = opField c ++ zeroField c ++ (0 : BitVec 6) :=
  calc c &&& 0xFFC0
      = (opField c ++ zeroField c ++ addrField c) &&& (BitVec.allOnes 4 ++ BitVec.allOnes 6 ++ 0#6) := by
        rw [append_fields]; rfl
    _ = opField c ++ zeroField c ++ 0#6 := by
        rw [BitVec.and_append, BitVec.and_append, BitVec.and_allOnes, BitVec.and_allOnes, BitVec.and_zero]

/-- A row of mask `0xFFC0` fixes the word but for its address. -/
theorem eq_cmdWord_of_and_ffc0 {c : CmdWord} {op : BitVec 4} (h : c &&& 0xFFC0 = cmdWord op 0) :
    c = cmdWord op (addrField c) := by
  rw [and_ffc0, cmdWord, BitVec.append_left_inj] at h
  rw [cmdWord, ← h, append_fields]

/-- A row of mask `0xFFE0` fixes the word but for an address below 32. -/
theorem eq_cmdWord_of_and_ffe0 {c : CmdWord} {op : BitVec 4} (h : c &&& 0xFFE0 = cmdWord op 0) :
    c = cmdWord op (addrField c) ∧ (addrField c).toNat < 32 := by
  have hrow : c &&& 0xFFC0 = cmdWord op 0 :=
    calc c &&& 0xFFC0 = (c &&& 0xFFE0) &&& 0xFFC0 := (BitVec.and_assoc c 0xFFE0 0xFFC0).symm
      _ = cmdWord op 0 := by rw [h, and_ffc0, opField_cmdWord, zeroField_cmdWord, cmdWord]
  have hbit : addrField c &&& 0x20 = 0 :=
    calc addrField c &&& 0x20 = addrField (c &&& 0xFFE0) := by rw [addrField, addrField, BitVec.extractLsb'_and]; rfl
      _ = 0 := by rw [h, addrField_cmdWord]
  have hlow : ∀ A : Addr, A &&& 0x20 = 0 → A.toNat < 32 := by decide
  exact ⟨eq_cmdWord_of_and_ffc0 hrow, hlow _ hbit⟩

section rows
variable (A : Addr) (d : Word)

theorem decodeCommand_wrw : decodeCommand (cmdWord 2 A) d = .legal (.wrw A d) := by
  simp [decodeCommand]

theorem decodeCommand_wrb : decodeCommand (cmdWord 3 A) d = .legal (.wrb A (d.extractLsb' 0 8)) := by
  simp [decodeCommand]

theorem decodeCommand_rdw (hA : A.toNat < 32) : decodeCommand (cmdWord 6 A) d = .legal (.rdw A) := by
  simp [decodeCommand, formatDig, digAddrExists, hA]

theorem decodeCommand_rdb (hA : A.toNat < 32) : decodeCommand (cmdWord 7 A) d = .legal (.rdb A) := by
  simp [decodeCommand, formatDig, digAddrExists, hA]

theorem decodeCommand_rdx : decodeCommand (cmdWord 8 A) d = .legal (.rdx A) := by
  simp [decodeCommand]

end rows

theorem not_legal_iff_illegal (x : Decoded) : (¬ ∃ i, x = .legal i) ↔ ∃ why, x = .illegal why := by
  cases x <;> simp

/-- `RDW` and `RDB` decode with an address of `DIG` only (R97); every other term has an encoding. -/
theorem wf_of_decodeCommand {c : CmdWord} {d : Word} {i : Instr} (h : decodeCommand c d = .legal i) :
    i.wf = true := by
  have dig {A : Addr} {j : Instr} (hf : formatDig A j = .legal i) : digAddrExists A = true := by
    by_contra hA
    rw [formatDig, if_neg hA] at hf
    cases hf
  unfold decodeCommand at h
  split at h
  next => cases h
  next =>
    split at h
    next => obtain ⟨_, rfl⟩ := formatC_legal h; rfl
    next => cases h; rfl
    next => cases h; rfl
    next => obtain ⟨_, rfl⟩ := formatC_legal h; rfl
    next => obtain ⟨_, rfl⟩ := formatC_legal h; rfl
    next => obtain rfl := formatDig_legal h; exact dig h
    next => obtain rfl := formatDig_legal h; exact dig h
    next => cases h; rfl
    next => obtain ⟨_, rfl⟩ := formatC_legal h; rfl
    next => cases h

end Sys2Proof.Machine
end

section
/-! The decoder and the encoder, the decoder and the table, and the illegal words. -/

namespace Sys2Proof.Machine

/-- Settles O1: the row of each command decodes to it at every operand; the engine steps are three closed codes. -/
theorem decodeEncodeRoundTrip : Obligations.DecodeEncodeRoundTrip := by
  unfold Obligations.DecodeEncodeRoundTrip
  intro i hwf
  cases i with
  | wrw A v => exact decodeCommand_wrw A v
  | wrb A b =>
    calc decodeCommand (cmdWord 3 A) (b.setWidth 32)
        = .legal (.wrb A ((b.setWidth 32).extractLsb' 0 8)) := decodeCommand_wrb A _
      _ = .legal (.wrb A b) := by rw [BitVec.extractLsb'_setWidth_of_le (by decide), BitVec.extractLsb'_eq_self]
  | rdw A => exact decodeCommand_rdw A 0 (of_decide_eq_true hwf)
  | rdb A => exact decodeCommand_rdb A 0 (of_decide_eq_true hwf)
  | rdx A => exact decodeCommand_rdx A 0
  | _ => rfl

/-- Settles O2: `wf_of_decodeCommand` and `encode_of_decodeCommand`. -/
theorem decodedWordsReencode : Obligations.DecodedWordsReencode := by
  unfold Obligations.DecodedWordsReencode
  exact fun c d i h => ⟨wf_of_decodeCommand h, encode_of_decodeCommand h⟩

/-- The code of a well-formed instruction selects the instruction's row (R95, R102). -/
theorem selects_encode {i : Instr} (hwf : i.wf = true) : selects (encode i) (tableRow i) = true :=
  match i with
  | .init => Laws.TableRow.init hwf
  | .wrw A v => Laws.TableRow.wrw A v hwf
  | .wrb A b => Laws.TableRow.wrb A b hwf
  | .next => Laws.TableRow.next hwf
  | .final => Laws.TableRow.final hwf
  | .rdw A => Laws.TableRow.rdw A hwf
  | .rdb A => Laws.TableRow.rdb A hwf
  | .rdx A => Laws.TableRow.rdx A hwf
  | .rds => Laws.TableRow.rds hwf
  | .expand => Laws.TableRow.expand hwf
  | .round => Laws.TableRow.round hwf
  | .fold => Laws.TableRow.fold hwf

/-- A command word that decodes selects the row of the instruction it decodes to (R95). -/
theorem selects_of_decodeCommand {c : CmdWord} {d : Word} {i : Instr} (h : decodeCommand c d = .legal i) :
    selects (.command c d) (tableRow i) = true := by
  obtain ⟨d', hcode⟩ := encode_of_decodeCommand h
  have hsel : selects (.command c d') (tableRow i) = true := hcode ▸ selects_encode (wf_of_decodeCommand h)
  cases hrow : tableRow i with
  | command pattern mask => rwa [hrow] at hsel
  | sequencer pattern mask => rw [hrow] at hsel; cases hsel

theorem eq_of_and_ffff {c pattern : CmdWord} (h : c &&& 0xFFFF = pattern) : c = pattern :=
  BitVec.and_allOnes.symm.trans h

/-- Settles O3: a word that matches a row is the row's operation with some address, which decodes as the row says; and a
word that decodes to an instruction selects that instruction's row, so a word that matches no row is illegal. -/
theorem decoderFollowsMatchAndMask : Obligations.DecoderFollowsMatchAndMask := by
  unfold Obligations.DecoderFollowsMatchAndMask
  intro c d
  have word (op : BitVec 4) (h : c &&& 0xFFC0 = cmdWord op 0) :
      decodeCommand c d = decodeCommand (cmdWord op (addrField c)) d :=
    congrArg (decodeCommand · d) (eq_cmdWord_of_and_ffc0 h)
  refine ⟨?init, ?wrw, ?wrb, ?next, ?final, ?rdw, ?rdb, ?rdx, ?rds, ?illegal⟩
  case init => exact fun h => eq_of_and_ffff h ▸ rfl
  case wrw => exact fun h => (word 2 h).trans (decodeCommand_wrw _ d)
  case wrb => exact fun h => (word 3 h).trans (decodeCommand_wrb _ d)
  case next => exact fun h => eq_of_and_ffff h ▸ rfl
  case final => exact fun h => eq_of_and_ffff h ▸ rfl
  case rdw =>
    intro h
    obtain ⟨hc, hA⟩ := eq_cmdWord_of_and_ffe0 (op := 6) h
    exact (congrArg (decodeCommand · d) hc).trans (decodeCommand_rdw _ d hA)
  case rdb =>
    intro h
    obtain ⟨hc, hA⟩ := eq_cmdWord_of_and_ffe0 (op := 7) h
    exact (congrArg (decodeCommand · d) hc).trans (decodeCommand_rdb _ d hA)
  case rdx => exact fun h => (word 8 h).trans (decodeCommand_rdx _ d)
  case rds => exact fun h => eq_of_and_ffff h ▸ rfl
  case illegal =>
    intro hinit hwrw hwrb hnext hfinal hrdw hrdb hrdx hrds
    refine (not_legal_iff_illegal _).1 ?_
    rintro ⟨i, hi⟩
    have hsel := selects_of_decodeCommand hi
    cases i with
    | init => exact hinit (beq_iff_eq.1 hsel)
    | wrw A v => exact hwrw (beq_iff_eq.1 hsel)
    | wrb A b => exact hwrb (beq_iff_eq.1 hsel)
    | next => exact hnext (beq_iff_eq.1 hsel)
    | final => exact hfinal (beq_iff_eq.1 hsel)
    | rdw A => exact hrdw (beq_iff_eq.1 hsel)
    | rdb A => exact hrdb (beq_iff_eq.1 hsel)
    | rdx A => exact hrdx (beq_iff_eq.1 hsel)
    | rds => exact hrds (beq_iff_eq.1 hsel)
    | expand => cases hsel
    | round => cases hsel
    | fold => cases hsel

theorem formatC_illegal_iff (A : Addr) (i : Instr) : (∃ why, formatC A i = .illegal why) ↔ A.toNat ≠ 0 := by
  rw [formatC]
  split
  next hA => exact iff_of_false nofun (by simp [hA])
  next hA => exact iff_of_true ⟨_, rfl⟩ fun h => hA (BitVec.eq_of_toNat_eq h)

theorem formatDig_illegal_iff (A : Addr) (i : Instr) : (∃ why, formatDig A i = .illegal why) ↔ 32 ≤ A.toNat := by
  rw [formatDig, digAddrExists]
  split
  next hA => exact iff_of_false nofun (Nat.not_le.2 (of_decide_eq_true hA))
  next hA => exact iff_of_true ⟨_, rfl⟩ (Nat.not_lt.1 fun h => hA (decide_eq_true h))

/-- The classes of R97, by the fields of the word. -/
theorem decodeCommand_illegal_iff (c : CmdWord) (d : Word) :
    (∃ why, decodeCommand c d = .illegal why) ↔
      zeroField c ≠ 0 ∨ (opField c).toNat = 0 ∨ 10 ≤ (opField c).toNat ∨
      ((addrField c).toNat ≠ 0 ∧
        ((opField c).toNat = 1 ∨ (opField c).toNat = 4 ∨ (opField c).toNat = 5 ∨ (opField c).toNat = 9)) ∨
      (32 ≤ (addrField c).toNat ∧ ((opField c).toNat = 6 ∨ (opField c).toNat = 7)) := by
  have legal (i : Instr) : ¬ ∃ why, Decoded.legal i = .illegal why := nofun
  unfold decodeCommand
  split
  next hz => exact iff_of_true ⟨_, rfl⟩ (.inl hz)
  next hz =>
    rw [or_iff_right hz]
    split
    next hop => rw [formatC_illegal_iff]; omega
    next hop => exact iff_of_false (legal _) (by omega)
    next hop => exact iff_of_false (legal _) (by omega)
    next hop => rw [formatC_illegal_iff]; omega
    next hop => rw [formatC_illegal_iff]; omega
    next hop => rw [formatDig_illegal_iff]; omega
    next hop => rw [formatDig_illegal_iff]; omega
    next hop => exact iff_of_false (legal _) (by omega)
    next hop => rw [formatC_illegal_iff]; omega
    next => exact iff_of_true ⟨_, rfl⟩ (by grind)

/-- Settles O4: a word with `ZERO = 0` has the value `4096 * OP + ADDR`, so the classes by fields
(`decodeCommand_illegal_iff`) are the listed ranges; an illegal word runs nothing but `raise`. -/
theorem illegalWordsAreExactlyTheListed : Obligations.IllegalWordsAreExactlyTheListed := by
  unfold Obligations.IllegalWordsAreExactlyTheListed
  intro c d
  refine ⟨?classes, ?accepted⟩
  case classes =>
    rw [decodeCommand_illegal_iff]
    change zeroField c ≠ 0 ∨ _ ↔ _ ∨ _ ∨ zeroField c ≠ 0 ∨ _
    by_cases hz : zeroField c = 0
    · have hvalue : c.toNat = 4096 * (opField c).toNat + 64 * 0 + (addrField c).toNat := by
        have hfields := toNat_eq_fields c
        rwa [hz] at hfields
      have hA : (addrField c).toNat < 64 := (addrField c).isLt
      simp only [hz, ne_eq, not_true_eq_false, false_or]
      omega
    · exact iff_of_true (.inl hz) (.inr (.inr (.inl hz)))
  case accepted =>
    rintro s ⟨why, hwhy⟩
    rcases accept_cases ⟨c, d⟩ s with ⟨_, _, ha⟩ | ⟨i, hi, _⟩
    · exact ha
    · rw [hwhy] at hi; cases hi

/-- Settles O5: the code of each state of the sequencer, decoded. -/
theorem sequencerCodeSelectsTheStep : Obligations.SequencerCodeSelectsTheStep := by
  unfold Obligations.SequencerCodeSelectsTheStep
  intro s
  refine ⟨?expand, ?round, ?fold, ?idle⟩
  all_goals
    intro hq
    rw [hq]
    exact ⟨rfl, rfl⟩

/-- Settles O6: each word is a closed term, read as its row. -/
theorem sampleWordsDecode : Obligations.SampleWordsDecode := by
  unfold Obligations.SampleWordsDecode
  exact ⟨rfl, decodeCommand_wrw 60 _, decodeCommand_wrb 63 _, decodeCommand_rdw 28 0 (by decide), decodeCommand_rdx 63 0,
    rfl, rfl⟩

end Sys2Proof.Machine
end

section
/-! `WAIT`: the sequencer's turns of a gap take away as many of the engine steps left, and the poll after them ends
`WAIT` when none is left (R101, R73). -/

namespace Sys2Proof.Machine

theorem remaining_pos_iff (s : State) : 0 < remaining s ↔ s.SEQ ≠ .idle :=
  Nat.pos_iff_ne_zero.trans (remaining_eq_zero_iff s).not

/-- `s'` is what `n` turns of the sequencer make of `s`: the engine steps left go down by `n` as far as there are any,
`PHASE` is set by the last of them (R163), and the host's list and the schedule are as they were. -/
structure TurnsTaken (n : Nat) (s s' : State) : Prop where
  inv : Inv s'
  remaining_eq : remaining s' = remaining s - n
  phase : s'.PHASE = if 0 < remaining s ∧ remaining s ≤ n then .processing else s.PHASE
  pending : s'.pending = s.pending
  schedule : s'.schedule = s.schedule

theorem TurnsTaken.refl {s : State} (h : Inv s) : TurnsTaken 0 s s :=
  ⟨h, rfl, (if_neg (by omega)).symm, rfl, rfl⟩

theorem TurnsTaken.trans {m n : Nat} {s s₁ s' : State} (h₁ : TurnsTaken m s s₁) (h : TurnsTaken n s₁ s') :
    TurnsTaken (m + n) s s' where
  inv := h.inv
  remaining_eq := by rw [h.remaining_eq, h₁.remaining_eq, Nat.sub_sub]
  phase := by
    rw [h.phase, h₁.remaining_eq, h₁.phase]
    grind
  pending := h.pending.trans h₁.pending
  schedule := h.schedule.trans h₁.schedule

/-- One turn of the sequencer is an engine step in a busy state, and nothing in `IDLE`. -/
theorem takeTurn_sequencer {s : State} (h : Inv s) :
    ∃ s', takeTurn .sequencer s = .next s' ∧ TurnsTaken 1 s s' := by
  have hinv : Inv { s with out := none } := h.port s.pending s.schedule none
  by_cases hq : s.SEQ = .idle
  · have hleft : remaining s = 0 := remaining_of_idle hq
    exact ⟨{ s with out := none }, (takeTurn_eq _ s).trans (sequencerTurn_idle hq), hinv,
      (remaining_of_idle hq).trans (by rw [hleft]), (if_neg (by omega)).symm, rfl, rfl⟩
  · have hpos : 0 < remaining s := (remaining_pos_iff s).2 hq
    obtain ⟨i, s', hi, he, hstep⟩ := engineStep_of_busy hinv hq
    have hturn : takeTurn .sequencer s = .next s' := (takeTurn_eq _ s).trans ((sequencerTurn_legal hi).trans he)
    have hleft : remaining s' + 1 = remaining s := hstep.remaining_succ
    have hphase : s'.PHASE = if remaining s = 1 then .processing else s.PHASE := hstep.phase
    refine ⟨s', hturn, (h.port s.pending (.sequencer :: s.schedule) s.out).step hturn, by omega, ?_, hstep.pending,
      hstep.schedule⟩
    rw [hphase]
    exact if_congr (show _ ↔ 0 < remaining s ∧ remaining s ≤ 1 by omega) rfl rfl

theorem engineTurns_succ {n : Nat} {s s₁ : State} (h : takeTurn .sequencer s = .next s₁) :
    engineTurns (n + 1) s = engineTurns n s₁ := by
  rw [engineTurns, h]

theorem engineTurns_next (n : Nat) {s : State} (h : Inv s) :
    ∃ s', engineTurns n s = .next s' ∧ TurnsTaken n s s' := by
  induction n generalizing s with
  | zero => exact ⟨s, rfl, .refl h⟩
  | succ n ih =>
    obtain ⟨s₁, hturn, htaken₁⟩ := takeTurn_sequencer h
    obtain ⟨s', hturns, htaken⟩ := ih htaken₁.inv
    exact ⟨s', (engineTurns_succ hturn).trans hturns, Nat.add_comm 1 n ▸ htaken₁.trans htaken⟩

theorem WaitResult.after_eq_done {status : Word} {r : WaitResult} {s' : State} {answers : List Word}
    (h : r.after status = .done s' answers) : ∃ rest, r = .done s' rest ∧ answers = status :: rest := by
  cases r with
  | done s rest => cases h; exact ⟨rest, rfl, rfl⟩
  | waiting s rest => cases h
  | stopped => cases h

/-- What a finished `WAIT` from `s` comes to: its answers, the commands it issued, and the state it ends in. -/
structure WaitEnds (gaps : List Nat) (s s' : State) (answers : List Word) : Prop where
  lastIdle : ∃ before last, answers = before ++ [last] ∧ last.getLsbD 2 = false ∧ ∀ a ∈ before, a.getLsbD 2 = true
  commands : waitCommands answers = List.replicate answers.length ⟨0x9000, 0⟩
  enough : remaining s ≤ (gaps.take answers.length).sum
  notBefore : ∀ k, 0 < k → k < answers.length → (gaps.take k).sum < remaining s
  idle : s'.SEQ = .idle
  phase : s.SEQ ≠ .idle → s'.PHASE = .processing
  pending : s'.pending = s.pending
  schedule : s'.schedule = s.schedule

section
variable {n : Nat} {gaps : List Nat} {s s₁ : State} (htaken : TurnsTaken n s s₁)
include htaken

/-- The first gap took all the engine steps left. -/
theorem WaitEnds.now (hq : s₁.SEQ = .idle) :
    WaitEnds (n :: gaps) s { s₁ with out := some ⟨0, s₁.STATUS⟩ } [s₁.STATUS] := by
  have hleft : remaining s ≤ n := Nat.sub_eq_zero_iff_le.1 (htaken.remaining_eq.symm.trans (remaining_of_idle hq))
  have hdone : waitDone s₁.STATUS = true := (waitDone_STATUS s₁).2 hq
  refine ⟨⟨[], s₁.STATUS, rfl, ?bit, nofun⟩, waitCommands_done [] hdone, by simpa using hleft, ?notBefore, hq, ?phase,
    htaken.pending, htaken.schedule⟩
  case bit => simpa [waitDone] using hdone
  case notBefore => intro k hpos hlt; rw [List.length_singleton] at hlt; omega
  case phase =>
    exact fun hbusy => htaken.phase.trans (if_pos ⟨(remaining_pos_iff s).2 hbusy, hleft⟩)

/-- The first gap left the engine busy, and `WAIT` goes on after a poll. -/
theorem WaitEnds.later {s' : State} {answers : List Word} (hbusy : s₁.SEQ ≠ .idle) {o : Option Response}
    (h : WaitEnds gaps { s₁ with out := o } s' answers) : WaitEnds (n :: gaps) s s' (s₁.STATUS :: answers) := by
  have hpos : 0 < remaining s₁ := (remaining_pos_iff s₁).2 hbusy
  have hleft : remaining s = n + remaining s₁ := by have := htaken.remaining_eq; omega
  have hdone : waitDone s₁.STATUS = false := Bool.eq_false_iff.2 fun hd => hbusy ((waitDone_STATUS s₁).1 hd)
  obtain ⟨before, last, hanswers, hlast, hbefore⟩ := h.lastIdle
  refine ⟨⟨s₁.STATUS :: before, last, by rw [hanswers]; rfl, hlast, ?bits⟩, ?commands, ?enough, ?notBefore, h.idle,
    fun _ => h.phase hbusy, h.pending.trans htaken.pending, h.schedule.trans htaken.schedule⟩
  case bits => exact List.forall_mem_cons.2 ⟨by simpa [waitDone] using hdone, hbefore⟩
  case commands => rw [waitCommands_busy answers hdone, h.commands]; rfl
  case enough =>
    rw [hleft, List.length_cons, List.take_succ_cons, List.sum_cons]
    exact Nat.add_le_add_left h.enough n
  case notBefore =>
    intro k hk hlt
    obtain ⟨k, rfl⟩ := Nat.exists_eq_succ_of_ne_zero hk.ne'
    rw [hleft, Nat.succ_eq_add_one, List.take_succ_cons, List.sum_cons]
    refine Nat.add_lt_add_left ?_ n
    by_cases hk0 : k = 0
    · simpa [hk0] using hpos
    · exact h.notBefore k (Nat.pos_of_ne_zero hk0) (Nat.lt_of_succ_lt_succ hlt)

end

theorem waitEnds_of_done {gaps : List Nat} {s s' : State} {answers : List Word} (hinv : Inv s)
    (h : wait gaps s = .done s' answers) : WaitEnds gaps s s' answers := by
  induction gaps generalizing s answers with
  | nil => cases h
  | cons n gaps ih =>
    obtain ⟨s₁, hturns, htaken⟩ := engineTurns_next n hinv
    rw [wait_cons gaps hturns] at h
    split at h
    next hq => cases h; exact .now htaken hq
    next hbusy =>
      obtain ⟨rest, hrest, rfl⟩ := WaitResult.after_eq_done h
      exact .later htaken hbusy (ih (htaken.inv.port _ _ _) hrest)

/-- `WAIT` is done once it has had a poll and the gaps have had room for the steps left. -/
theorem wait_done_of_remaining_le {gaps : List Nat} {s : State} (hinv : Inv s) (hne : gaps ≠ [])
    (hroom : remaining s ≤ gaps.sum) : ∃ s' answers, wait gaps s = .done s' answers := by
  induction gaps generalizing s with
  | nil => exact absurd rfl hne
  | cons n gaps ih =>
    obtain ⟨s₁, hturns, htaken⟩ := engineTurns_next n hinv
    rw [wait_cons gaps hturns]
    split
    next => exact ⟨_, _, rfl⟩
    next hbusy =>
      have hpos : 0 < remaining s₁ := (remaining_pos_iff s₁).2 hbusy
      have hroom₁ : remaining s₁ ≤ gaps.sum := by
        rw [htaken.remaining_eq]
        rw [List.sum_cons] at hroom
        omega
      have hne₁ : gaps ≠ [] := by rintro rfl; exact hpos.not_ge hroom₁
      obtain ⟨s', answers, hdone⟩ :=
        ih (s := { s₁ with out := some ⟨0, s₁.STATUS⟩ }) (htaken.inv.port _ _ _) hne₁ hroom₁
      exact ⟨s', s₁.STATUS :: answers, by rw [hdone]; rfl⟩

/-- Settles O54: `waitEnds_of_done` and `wait_done_of_remaining_le`, each by induction on the gaps. -/
theorem waitEndsAtTheFirstIdlePoll : Obligations.WaitEndsAtTheFirstIdlePoll := by
  unfold Obligations.WaitEndsAtTheFirstIdlePoll
  intro s gaps hinv
  refine ⟨fun s' answers hdone => ?_, wait_done_of_remaining_le hinv⟩
  have h := waitEnds_of_done hinv hdone
  exact ⟨h.lastIdle, h.commands, h.enough, h.notBefore, h.idle, h.phase, h.pending, h.schedule⟩

end Sys2Proof.Machine
end

section
/-! The digest read unit by unit: its bytes and characters as lists over the addresses of `DIG` and `HEX` (R173). -/

namespace Sys2Proof.Machine

/-- A list over `0..mn-1`, in `n` groups of `m`. -/
theorem flatMap_range_groups {α : Type} (f : Nat → α) (m n : Nat) :
    (List.range n).flatMap (fun i => (List.range m).map fun j => f (m * i + j)) = (List.range (m * n)).map f := by
  induction n with
  | zero => rfl
  | succ n ih =>
    rw [List.range_succ, List.flatMap_append, ih, Nat.mul_succ, List.range_add, List.map_append, List.map_map,
      List.flatMap_singleton]
    rfl

/-- The words of `DIG`, in order, are those of `H` (R63). -/
theorem toList_eq_map_digWord (H : Vector Word 8) :
    H.toList = (List.range 8).map fun i => digWord H (digAddr (BitVec.ofNat 6 (4 * i))) := by
  refine List.ext_getElem (by simp) fun i hi _ => ?_
  have hlt : i < 8 := by simpa using hi
  have haddr : (digAddr (BitVec.ofNat 6 (4 * i))).val = 4 * i := by
    simp only [digAddr, BitVec.toNat_ofNat]; omega
  simp only [List.getElem_map, List.getElem_range, Vector.getElem_toList]
  rw [digWord_aligned _ _ (by omega)]
  simp only [haddr, Nat.mul_div_cancel_left i (show 0 < 4 by decide)]

/-- The four bytes of a word of `DIG` (R64). -/
theorem bytes_digWord (H : Vector Word 8) (A : Fin 32) :
    [byteOf 0 (digWord H A), byteOf 1 (digWord H A), byteOf 2 (digWord H A), byteOf 3 (digWord H A)] =
      [digByte H A, digByte H (A + 1), digByte H (A + 2), digByte H (A + 3)] := by
  simp only [digWord, byteOf_be32_zero, byteOf_be32_one, byteOf_be32_two, byteOf_be32_three]

/-- `assemble(H)` lists the bytes of `DIG` (R173). -/
theorem assemble_eq_map_digByte (H : Vector Word 8) :
    assemble H = (List.range 32).map fun k => digByte H (Fin.ofNat 32 k) := by
  have haddr : ∀ i < 8, digAddr (BitVec.ofNat 6 (4 * i)) = Fin.ofNat 32 (4 * i) ∧
      Fin.ofNat 32 (4 * i) + 1 = Fin.ofNat 32 (4 * i + 1) ∧ Fin.ofNat 32 (4 * i) + 2 = Fin.ofNat 32 (4 * i + 2) ∧
      Fin.ofNat 32 (4 * i) + 3 = Fin.ofNat 32 (4 * i + 3) := by decide
  rw [assemble, toList_eq_map_digWord, List.flatMap_map, ← flatMap_range_groups _ 4 8]
  refine List.flatMap_congr fun i hi => ?_
  obtain ⟨h0, h1, h2, h3⟩ := haddr i (List.mem_range.1 hi)
  rw [bytes_digWord, h0, h1, h2, h3]
  rfl

/-- The two characters of byte `k` of `DIG` (R65). -/
theorem hexChar_pair (H : Vector Word 8) {k : Nat} (hk : k < 32) :
    [hexCode ((digByte H (Fin.ofNat 32 k)).extractLsb' 4 4), hexCode ((digByte H (Fin.ofNat 32 k)).extractLsb' 0 4)] =
      [hexChar H (BitVec.ofNat 6 (2 * k)), hexChar H (BitVec.ofNat 6 (2 * k + 1))] := by
  have haddr : ∀ k < 32,
      (BitVec.ofNat 6 (2 * k)).toNat % 2 = 0 ∧ hexDigAddr (BitVec.ofNat 6 (2 * k)) = Fin.ofNat 32 k ∧
      (BitVec.ofNat 6 (2 * k + 1)).toNat % 2 ≠ 0 ∧ hexDigAddr (BitVec.ofNat 6 (2 * k + 1)) = Fin.ofNat 32 k := by
    decide
  obtain ⟨heven, hhigh, hodd, hlow⟩ := haddr k hk
  rw [hexChar, if_pos heven, hhigh, hexChar, if_neg hodd, hlow]

/-- `hex(assemble(H))` lists the characters of `HEX` (R173). -/
theorem hexString_assemble_eq_map_hexChar (H : Vector Word 8) :
    hexString (assemble H) = (List.range 64).map fun j => hexChar H (BitVec.ofNat 6 j) := by
  rw [hexString, assemble_eq_map_digByte, List.flatMap_map, ← flatMap_range_groups _ 2 32]
  exact List.flatMap_congr fun k hk => hexChar_pair H (List.mem_range.1 hk)

end Sys2Proof.Machine
end

section
/-! Runs of read commands: each responds with its part of the digest, and nothing but the port changes. -/

namespace Sys2Proof.Machine

/-- The transaction that issues a command is accepted as that command (R95, R131). -/
theorem accept_transaction {i : Instr} {c : CmdWord} {d : Word} (hcode : encode i = .command c d)
    (hwf : i.wf = true) (s : State) : accept (transaction i) s = exec i s := by
  have hdecode : decode (.command c d) = .legal i := hcode ▸ decodeEncodeRoundTrip i hwf
  rw [transaction, hcode]
  exact accept_legal s hdecode

theorem exec_rdw_of_finalized {s : State} {A : Addr} (hA : A.toNat < 32) (haligned : A.toNat % 4 = 0)
    (hp : s.PHASE = .finalized) : exec (.rdw A) s = .next (s.respond (digWord s.H (digAddr A))) :=
  checked_of_firstFault_none
    ((firstFault_none_iff (.rdw A) s).2
      ⟨decide_eq_true hA, by simp [misaligned, aligned, haligned], by simp [permitted, hp], nofun⟩) _

theorem exec_rdx_of_finalized {s : State} (A : Addr) (hp : s.PHASE = .finalized) :
    exec (.rdx A) s = .next (s.respond ((hexChar s.H A).setWidth 32)) :=
  checked_of_firstFault_none ((firstFault_none_iff (.rdx A) s).2 ⟨rfl, rfl, by simp [permitted, hp], nofun⟩) _

/-- In `FINALIZED`, with the digest `H`, the accepted transaction responds `OK` with the word `w` and does nothing
else. -/
def Reads (c : Command) (H : Vector Word 8) (w : Word) : Prop :=
  ∀ s : State, s.PHASE = .finalized → s.H = H → accept c s = .next (s.respond w)

theorem reads_rdw (H : Vector Word 8) {A : Addr} (hA : A.toNat < 32) (haligned : A.toNat % 4 = 0) :
    Reads (transaction (.rdw A)) H (digWord H (digAddr A)) := by
  rintro s hp rfl
  exact (accept_transaction (i := .rdw A) rfl (decide_eq_true hA) s).trans (exec_rdw_of_finalized hA haligned hp)

theorem reads_rdx (H : Vector Word 8) (A : Addr) : Reads (transaction (.rdx A)) H ((hexChar H A).setWidth 32) := by
  rintro s hp rfl
  exact (accept_transaction (i := .rdx A) rfl rfl s).trans (exec_rdx_of_finalized A hp)

/-- With the engine idle and no turn scheduled, the next step accepts the transaction presented (R130). -/
theorem step_of_idle_pending {s : State} {c : Command} {rest : List Command} (hq : s.SEQ = .idle)
    (hs : s.schedule = []) (hp : s.pending = c :: rest) :
    step s = accept c { s with pending := rest, out := none } := by
  have hready : cmdReady s.SEQ c.cmd = true := (cmdReady_iff _ _).2 (.inl hq)
  have hturn : nextTurn s = .host := (nextTurn_of_schedule_nil hs).trans (eagerTurn_ready hp hready)
  have hbegun : { s.beginStep with pending := rest } = { s with pending := rest, out := none } := by
    rw [State.beginStep, hs]
    rfl
  rw [step_host_ready hturn hp hready, hbegun]

/-- A list of reads takes one step each. -/
theorem runs_of_reads {α : Type} (xs : List α) {cmd : α → Command} {view : α → Word} {s : State} {rest : List Command}
    (hphase : s.PHASE = .finalized) (hq : s.SEQ = .idle) (hs : s.schedule = [])
    (hreads : ∀ x ∈ xs, Reads (cmd x) s.H (view x)) (hp : s.pending = xs.map cmd ++ rest) :
    ∃ o : Option Response,
      Runs xs.length s ((xs.map view).map fun w => ⟨0, w⟩) { s with pending := rest, out := o } := by
  induction xs generalizing s with
  | nil => exact ⟨s.out, rfl, by rw [show rest = s.pending from hp.symm]⟩
  | cons x xs ih =>
    obtain ⟨hread, hreads⟩ := List.forall_mem_cons.1 hreads
    obtain ⟨o, hruns⟩ :=
      ih (s := { s with pending := xs.map cmd ++ rest, out := some ⟨0, view x⟩ }) hphase hq hs hreads rfl
    exact ⟨o, _, _, (step_of_idle_pending hq hs hp).trans (hread _ hphase rfl), rfl, hruns⟩

/-- The four bytes of each word of `H` are `assemble(H)` (R173, R184). -/
theorem digestOfWords_toList (H : Vector Word 8) : digestOfWords H.toList = assemble H := rfl

/-- Settles O55: both sequences are runs of reads (`runs_of_reads`), and what they return are the words of `H` and the
characters of `HEX`, in order. -/
theorem readSequencesGiveDigestAndHex : Obligations.ReadSequencesGiveDigestAndHex := by
  unfold Obligations.ReadSequencesGiveDigestAndHex
  intro s rest hphase hq hs
  refine ⟨fun hp => ?digest, fun hp => ?hex⟩
  case digest =>
    have haddr : ∀ i < 8, (BitVec.ofNat 6 (4 * i)).toNat < 32 ∧ (BitVec.ofNat 6 (4 * i)).toNat % 4 = 0 := by decide
    obtain ⟨o, hruns⟩ := runs_of_reads (List.range 8) hphase hq hs
      (fun i hi => reads_rdw s.H (haddr i (List.mem_range.1 hi)).1 (haddr i (List.mem_range.1 hi)).2) hp
    rw [← toList_eq_map_digWord] at hruns
    exact ⟨s.H.toList, o, hruns, digestOfWords_toList s.H⟩
  case hex =>
    obtain ⟨o, hruns⟩ := runs_of_reads (List.range 64) hphase hq hs (fun j _ => reads_rdx s.H (BitVec.ofNat 6 j)) hp
    refine ⟨_, o, hruns, ?string, ?codes⟩
    case string =>
      rw [hexString_assemble_eq_map_hexChar, hexOfWords, List.map_map]
      refine List.map_congr_left fun j _ => ?_
      exact (BitVec.extractLsb'_setWidth_of_le (by decide)).trans BitVec.extractLsb'_eq_self
    case codes =>
      intro c hc
      obtain ⟨j, _, rfl⟩ := List.mem_map.1 hc
      rw [BitVec.toNat_setWidth_of_le (by decide)]
      exact (hexChar s.H (BitVec.ofNat 6 j)).isLt

end Sys2Proof.Machine
end

section
/-! Word arithmetic as the algorithm uses it (R110 to R112, R119, R120): the sum of terms in any order and grouping, and
the bits of the rotation and of the two selecting functions. -/

namespace Sys2Proof.Machine

theorem toNat_add32 (xs : List Word) : (add32 xs).toNat = (xs.map BitVec.toNat).sum % 2 ^ 32 :=
  BitVec.toNat_ofNat _ _

theorem add32_eq_of_perm {xs ys : List Word} (h : xs.Perm ys) : add32 xs = add32 ys :=
  congrArg (BitVec.ofNat 32) (h.map BitVec.toNat).sum_nat

theorem add32_append (xs ys : List Word) : add32 (xs ++ ys) = add32 xs + add32 ys := by
  induction xs with
  | nil => rw [List.nil_append, add32_nil, zero_add]
  | cons x xs ih => rw [List.cons_append, add32_cons, add32_cons, ih, add_assoc]

theorem add32_singleton (x : Word) : add32 [x] = x := by
  rw [add32_cons, add32_nil, add_zero]

/-- Settles O43: the sum of a list is a sum of natural numbers, and over an append it is the sum of the sums. -/
theorem additionWrapsInAnyOrder : Obligations.AdditionWrapsInAnyOrder := by
  unfold Obligations.AdditionWrapsInAnyOrder
  refine ⟨toNat_add32, fun _ _ => add32_eq_of_perm, fun xs ys zs => ?grouping, add32_pair⟩
  case grouping => simp only [add32_append, add32_singleton]

/-- Below bit `32 - n` the rotation is a shift; the `n` highest bits are the lowest of `x`. -/
theorem getLsbD_rotr {x : Word} {n i : Nat} (hn : n < 32) (hi : i < 32) :
    (rotr x n).getLsbD i = x.getLsbD ((i + n) % 32) := by
  rw [rotr_eq_rotateRight x n hn, BitVec.getLsbD_rotateRight, Nat.mod_eq_of_lt hn, Bool.cond_decide]
  split
  case isTrue hlow => rw [Nat.mod_eq_of_lt (by omega), Nat.add_comm]
  case isFalse hhigh =>
    have hwrap : (i + n) % 32 = i - (32 - n) := by omega
    rw [hwrap, decide_eq_true hi, Bool.true_and]

theorem toNat_shr (x : Word) (n : Nat) : (shr x n).toNat = x.toNat / 2 ^ n := by
  rw [shr, BitVec.toNat_ushiftRight, Nat.shiftRight_eq_div_pow]

/-- Settles O44: the rotation is the library's, whose bits wrap around once, and the shift divides. -/
theorem rotateIsCircularAndShiftIsLogical : Obligations.RotateIsCircularAndShiftIsLogical := by
  unfold Obligations.RotateIsCircularAndShiftIsLogical
  exact ⟨fun _ _ _ _ hn hi => getLsbD_rotr hn hi, fun x n _ _ => toNat_shr x n⟩

theorem getLsbD_ch (e f g : Word) {i : Nat} (hi : i < 32) :
    (ch e f g).getLsbD i = if e.getLsbD i then f.getLsbD i else g.getLsbD i := by
  rw [ch, BitVec.getLsbD_xor, BitVec.getLsbD_and, BitVec.getLsbD_and, BitVec.getLsbD_not, decide_eq_true hi]
  cases e.getLsbD i with
  | false => simp
  | true => simp

/-- The exclusive or of the three pairwise conjunctions is the majority of three bits. -/
theorem majority_of_bits : ∀ a b c : Bool,
    ((a && b) ^^ (a && c) ^^ (b && c)) = decide (2 ≤ a.toNat + b.toNat + c.toNat) := by decide

theorem getLsbD_maj (a b c : Word) (i : Nat) :
    (maj a b c).getLsbD i = decide (2 ≤ (a.getLsbD i).toNat + (b.getLsbD i).toNat + (c.getLsbD i).toNat) := by
  simp only [maj, BitVec.getLsbD_xor, BitVec.getLsbD_and, majority_of_bits]

theorem maj_swap_left (a b c : Word) : maj a b c = maj b a c := by
  rw [maj, maj, BitVec.and_comm b a, BitVec.xor_assoc, BitVec.xor_assoc, BitVec.xor_comm (a &&& c)]

theorem maj_swap_right (a b c : Word) : maj a b c = maj a c b := by
  rw [maj, maj, BitVec.and_comm c b, BitVec.xor_comm (a &&& b)]

/-- Settles O45: both functions act on each bit alone, so their bits are those of the function of three bits. -/
theorem chSelectsAndMajVotes : Obligations.ChSelectsAndMajVotes := by
  unfold Obligations.ChSelectsAndMajVotes
  exact ⟨fun e f g _ hi => getLsbD_ch e f g hi, fun a b c i _ => getLsbD_maj a b c i,
    fun a b c => ⟨maj_swap_left a b c, maj_swap_right a b c⟩⟩

end Sys2Proof.Machine
end

section
/-! The faults of the control commands by name, and what the port does with a command word. -/

namespace Sys2Proof.Machine

/-- A command that fails a check raises its fault and does nothing else (R131, R204). -/
theorem checked_of_firstFault_some {i : Instr} {s : State} {c : Cause} (h : firstFault i s = some c)
    (effect : Result) : checked i s effect = .next (s.raise c) := by
  rw [checked, h]

/-- `PhaseError` is the first fault of an aligned command in a phase that forbids it (R131 check 3). -/
theorem firstFault_of_not_permitted {i : Instr} {s : State} (hwf : i.wf = true) (hmis : misaligned i = false)
    (hperm : permitted i s.PHASE = false) : firstFault i s = some .phaseError := by
  simp [firstFault, hwf, hmis, hperm]

/-- A command word other than `0x9000` is accepted exactly when the sequencer is idle (R130). -/
theorem cmdReady_iff_idle {c : CmdWord} (hc : c ≠ rdsWord) (q : Seq) : cmdReady q c = true ↔ q = .idle :=
  (cmdReady_iff q c).trans (or_iff_left hc)

/-- Settles O12: `INIT` has no check to fail. -/
theorem initStartsAComputation : Obligations.InitStartsAComputation := by
  unfold Obligations.InitStartsAComputation
  exact ⟨fun s => checked_of_firstFault_none (firstFault_init s) _, fun _ => rfl, cmdReady_iff_idle (by decide)⟩

theorem firstFault_final_of_processing {s : State} (hp : s.PHASE = .processing) : firstFault .final s = none :=
  (firstFault_none_iff .final s).2 ⟨rfl, rfl, by simp [permitted, hp], nofun⟩

/-- Settles O14: the permission check is the only one `FINAL` can fail. -/
theorem finalClosesTheComputation : Obligations.FinalClosesTheComputation := by
  unfold Obligations.FinalClosesTheComputation
  refine ⟨fun s hp => ?closed, fun s hp => ?fault, fun _ => rfl, cmdReady_iff_idle (by decide)⟩
  case closed => exact checked_of_firstFault_none (firstFault_final_of_processing hp) _
  case fault =>
    exact checked_of_firstFault_some (firstFault_of_not_permitted (i := .final) rfl rfl (by simp [permitted, hp])) _

end Sys2Proof.Machine
end

section
/-! `NEXT` (R134): which check it fails, and the words it parses the block into. -/

namespace Sys2Proof.Machine

theorem Phase.takesBlocks_eq_false {p : Phase} (hp : p = .uninit ∨ p = .finalized) : p.takesBlocks = false := by
  rcases hp with rfl | rfl <;> rfl

theorem firstFault_next_of_incomplete {s : State} (hp : TakesBlocks s.PHASE) (hbv : s.BV ≠ 0xFFFFFFFFFFFFFFFF) :
    firstFault .next s = some .blockIncomplete := by
  have hperm : permitted .next s.PHASE = true := s.PHASE.takesBlocks_iff.2 hp
  have hblock : s.blockComplete = false := beq_eq_false_iff_ne.2 hbv
  simp [firstFault, Instr.wf, misaligned, needsBlock, hperm, hblock]

theorem firstFault_next_of_complete {s : State} (hp : TakesBlocks s.PHASE) (hbv : s.BV = 0xFFFFFFFFFFFFFFFF) :
    firstFault .next s = none :=
  (firstFault_none_iff .next s).2 ⟨rfl, rfl, s.PHASE.takesBlocks_iff.2 hp, fun _ => beq_iff_eq.2 hbv⟩

/-- `NEXT` with a complete block of which every byte holds a value (R134). -/
theorem exec_next_of_complete {s : State} (hp : TakesBlocks s.PHASE) (hbv : s.BV = 0xFFFFFFFFFFFFFFFF)
    (hvalued : BytesValued s) : exec .next s = .next (s.takeBlock.respond 0) :=
  (checked_of_firstFault_none (firstFault_next_of_complete hp hbv) _).trans (if_pos (hvalued.full hbv))

/-- The left operand of an append stands above the right one. -/
theorem toNat_append_eq_add {m n : Nat} (x : BitVec m) (y : BitVec n) :
    (x ++ y).toNat = x.toNat * 2 ^ n + y.toNat := by
  rw [BitVec.toNat_append, ← Nat.shiftLeft_add_eq_or_of_lt y.isLt, Nat.shiftLeft_eq]

/-- The value of a word given by its bytes (R114). -/
theorem toNat_be32 (b0 b1 b2 b3 : Byte) :
    (be32 b0 b1 b2 b3).toNat = b0.toNat * 2 ^ 24 + b1.toNat * 2 ^ 16 + b2.toNat * 2 ^ 8 + b3.toNat := by
  simp only [be32, toNat_append_eq_add]
  omega

/-- Settles O13: the phase is checked before the block; past both checks `NEXT` is `State.takeBlock`, whose schedule is
the parse of the block. -/
theorem nextTakesTheBlock : Obligations.NextTakesTheBlock := by
  unfold Obligations.NextTakesTheBlock
  refine ⟨fun s hp => ?phase, fun s hp hbv => ?incomplete, fun s hp hbv hvalued => ?complete, fun _ => rfl,
    cmdReady_iff_idle (by decide)⟩
  case phase =>
    have hperm : permitted .next s.PHASE = false := Phase.takesBlocks_eq_false hp
    exact checked_of_firstFault_some (firstFault_of_not_permitted rfl rfl hperm) _
  case incomplete => exact checked_of_firstFault_some (firstFault_next_of_incomplete hp hbv) _
  case complete =>
    refine ⟨parseInto s.W s.BLK.byte, exec_next_of_complete hp hbv hvalued, ?parsed, ?kept⟩
    case parsed =>
      intro i hi b0 b1 b2 b3 hlow h0 h1 h2 h3
      rw [parseInto_low _ _ i hlow, blockWord, Memory.byte_eq h0, Memory.byte_eq h1, Memory.byte_eq h2,
        Memory.byte_eq h3, toNat_be32]
    case kept => exact fun i hi hhigh => parseInto_high _ _ i hhigh hi

end Sys2Proof.Machine
end

section
/-! `STATUS` as a number (R36): its four fields in their places. -/

namespace Sys2Proof.Machine

/-- The fields of `STATUS`, with the weights of their places (R36). -/
theorem toNat_STATUS (s : State) :
    s.STATUS.toNat = s.PHASE.code.toNat + (if s.SEQ = .idle then 0 else 4) + (if s.ERR then 8 else 0) +
      16 * s.CAUSE.toNat := by
  have hbusy : s.BUSY.toNat * 4 = if s.SEQ = .idle then 0 else 4 := by
    rw [State.BUSY]
    cases s.SEQ <;> rfl
  have herr : s.ERR.toNat * 8 = if s.ERR then 8 else 0 := by cases s.ERR <;> rfl
  rw [State.STATUS, BitVec.toNat_setWidth_of_le (by decide), ← hbusy, ← herr]
  simp only [toNat_append_eq_add, BitVec.toNat_ofBool]
  omega

/-- The words `0x9001..0x903F` are `RDS` with an address. -/
theorem rdsWord_add (A : Addr) : rdsWord + A.setWidth 16 = cmdWord 9 A := by
  have hA : A.toNat < 64 := A.isLt
  apply BitVec.eq_of_toNat_eq
  rw [toNat_cmdWord, BitVec.toNat_add, BitVec.toNat_setWidth_of_le (by decide),
    show rdsWord.toNat = 36864 from rfl, show (9 : BitVec 4).toNat = 9 from rfl]
  omega

theorem Inv.STATUS_busy {s : State} (h : Inv s) (hb : s.STATUS.toNat / 4 % 2 = 1) :
    s.STATUS.toNat % 4 = 1 ∨ s.STATUS.toNat % 4 = 2 := by
  have hcode : s.PHASE.code.toNat < 4 := s.PHASE.code.isLt
  rw [toNat_STATUS] at hb ⊢
  by_cases hq : s.SEQ = .idle
  · rw [if_pos hq] at hb
    split at hb <;> omega
  · rw [if_neg hq]
    have hphase : s.PHASE.code.toNat = 1 ∨ s.PHASE.code.toNat = 2 := by
      rcases (h.busyPhase hq).1 with hp | hp
      · exact .inl (by rw [hp]; rfl)
      · exact .inr (by rw [hp]; rfl)
    split <;> omega

theorem Inv.STATUS_fault {s : State} (h : Inv s) :
    s.STATUS.toNat / 8 = 0 ∨
      (s.STATUS.toNat / 8 % 2 = 1 ∧ 1 ≤ s.STATUS.toNat / 16 ∧ s.STATUS.toNat / 16 ≤ 4) := by
  have hlow : s.PHASE.code.toNat + (if s.SEQ = .idle then 0 else 4) < 8 := by
    have hcode : s.PHASE.code.toNat < 4 := s.PHASE.code.isLt
    split <;> omega
  rw [toNat_STATUS]
  generalize s.PHASE.code.toNat + (if s.SEQ = .idle then 0 else 4) = low at hlow
  cases herr : s.ERR with
  | false =>
    have hcause : s.CAUSE.toNat = 0 := by rw [h.cause.1 herr]; rfl
    rw [if_neg Bool.false_ne_true, hcause]
    exact .inl (by omega)
  | true =>
    obtain ⟨hpos, hle⟩ := h.cause.2 herr
    rw [if_pos rfl]
    exact .inr (by omega)

/-- Settles O15: `RDS` has no check to fail and responds with `STATUS`, whose fields are those of `toNat_STATUS`; the
words after `0x9000` are `RDS` with an address that is not 0. -/
theorem rdsReturnsTheStatusRegister : Obligations.RdsReturnsTheStatusRegister := by
  unfold Obligations.RdsReturnsTheStatusRegister
  refine ⟨fun s => ⟨s.STATUS, rfl, ?fields⟩, fun _ => rfl, fun q => (cmdReady_iff q _).2 (.inr rfl),
    fun A d hA => ?illegal, fun s h => ⟨h.STATUS_busy, h.STATUS_fault⟩⟩
  case fields =>
    rw [toNat_STATUS]
    cases s.PHASE <;> rfl
  case illegal =>
    change (∃ why, decodeCommand (rdsWord + _) d = _) ∧ ∀ q, cmdReady q (rdsWord + _) = true ↔ _
    rw [rdsWord_add]
    refine ⟨(decodeCommand_illegal_iff _ d).2 ?_, cmdReady_iff_idle fun hc => hA ?_⟩
    · have hA0 : A.toNat ≠ 0 := fun h0 => hA (BitVec.eq_of_toNat_eq h0)
      simp [hA0]
    · rw [← addrField_cmdWord 9 A, hc]
      rfl

end Sys2Proof.Machine
end

section
/-! How long a command is held: what makes a busy sequencer idle, and the bound of 113 engine steps (R130, R245). -/

namespace Sys2Proof.Machine

/-- Of the effects that may run in a busy engine only that of `FOLD` leads to `IDLE`. -/
theorem Effect.eq_fold_of_idle {i : Instr} {s s' : State} (h : Effect i s s') (hbusy : s.SEQ ≠ .idle)
    (hidle : s'.SEQ = .idle) : i = .fold := by
  cases i with
  | fold => rfl
  | next =>
    obtain ⟨_, rfl⟩ := h
    cases hidle
  | expand =>
    rcases h.expand_path with ⟨_, hq, _⟩ | ⟨_, hq, _⟩
    · exact absurd (hq.symm.trans hidle) hbusy
    · cases hq.symm.trans hidle
  | round =>
    rcases h.round_path with ⟨_, hq, _⟩ | ⟨_, hq, _⟩
    · exact absurd (hq.symm.trans hidle) hbusy
    · cases hq.symm.trans hidle
  | _ => exact absurd ((h.SEQ_t_eq nofun nofun nofun nofun).1.symm.trans hidle) hbusy

/-- A block takes 113 engine steps, and a busy state of a run has at most as many left (R41). -/
theorem Inv.remaining_le {s : State} (h : Inv s) : remaining s ≤ 113 := by
  cases hq : s.SEQ with
  | idle => rw [remaining_of_idle hq]; omega
  | expand =>
    have ht : 16 ≤ s.t.val := h.counterExpand hq
    rw [remaining_of_expand hq]
    omega
  | round => rw [remaining_of_round hq]; omega
  | fold => rw [remaining_of_fold hq]; omega

/-- Settles O8: the host's turn is `accept` or nothing; of the outcomes of a step (`step_outcome`) only `RESET` and the
effect of `FOLD` end a busy state; and an undisturbed busy engine runs through its `remaining` steps. -/
theorem commandsAreAcceptedOrHeld : Obligations.CommandsAreAcceptedOrHeld := by
  unfold Obligations.CommandsAreAcceptedOrHeld
  refine ⟨fun s c rest turn hp => ⟨fun hr => ?accepted, fun hbusy hc => ?held⟩, fun s s' h hbusy hidle => ?lifted,
    fun s h hbusy hu => ?bound⟩
  case accepted => exact step_host_ready turn hp ((cmdReady_iff _ _).2 hr)
  case held =>
    have hr : cmdReady s.SEQ c.cmd = false := Bool.eq_false_iff.2 fun hr => ((cmdReady_iff _ _).1 hr).elim hbusy hc
    exact (step_eq_runTurn turn).trans (hostTurn_held hp hr)
  case lifted =>
    cases step_outcome h with
    | port p eq => exact absurd (by rw [← hidle, eq]; rfl) hbusy
    | fault p c eq => exact absurd (by rw [← hidle, eq]; rfl) hbusy
    | reset turn eq => exact .inl turn
    | effect p i issued passes eff =>
      obtain rfl : i = .fold := eff.eq_fold_of_idle hbusy hidle
      exact .inr ⟨issued.engine rfl, issued.admitted⟩
  case bound =>
    obtain ⟨s', hr, -, hleft, -, hpending, -⟩ := runs_of_undisturbed (remaining s) h hbusy hu le_rfl
    exact ⟨remaining s, s', h.remaining_le, hr, (remaining_eq_zero_iff s').1 (by omega), hpending⟩

end Sys2Proof.Machine
end

section
/-! Outside `FINALIZED`, what a step does to everything but `H`, `a..h` and `W` does not depend on them (R136). -/

namespace Sys2Proof.Machine

/-- The state with other values in `H`, `a..h` and `W`. -/
def State.withRunning (s : State) (H : Vector Word 8) (v : Working) (W : Vector Word 64) : State :=
  { s with H := H, v := v, W := W }

/-- Whatever next state the first result is, the second is one too and differs from it in `H`, `a..h` and `W` at
most. -/
def AgreeButRunning (r₁ r₂ : Result) : Prop :=
  ∀ s', r₁ = .next s' → ∃ H v W, r₂ = .next (s'.withRunning H v W)

theorem AgreeButRunning.next (s : State) (H : Vector Word 8) (v : Working) (W : Vector Word 64) :
    AgreeButRunning (.next s) (.next (s.withRunning H v W)) := by
  rintro _ ⟨⟩
  exact ⟨H, v, W, rfl⟩

theorem State.advance_withRunning (s : State) (H : Vector Word 8) (v : Working) (W : Vector Word 64) (after : Seq) :
    (s.withRunning H v W).advance after = (s.advance after).withRunning H v W := by
  unfold State.advance State.withRunning
  dsimp only
  split <;> rfl

theorem AgreeButRunning.advance (s : State) {H₁ H₂ : Vector Word 8} {v₁ v₂ : Working} {W₁ W₂ : Vector Word 64}
    (after : Seq) :
    AgreeButRunning (.next ((s.withRunning H₁ v₁ W₁).advance after))
      (.next ((s.withRunning H₂ v₂ W₂).advance after)) := by
  rw [State.advance_withRunning, State.advance_withRunning]
  exact .next _ H₂ v₂ W₂

section
variable (s : State) (H : Vector Word 8) (v : Working) (W : Vector Word 64)

/-- The checks of R131 do not read `H`, `a..h` and `W`. -/
theorem AgreeButRunning.checked {i : Instr} {e₁ e₂ : Result} (he : firstFault i s = none → AgreeButRunning e₁ e₂) :
    AgreeButRunning (checked i s e₁) (checked i (s.withRunning H v W) e₂) := by
  have hfault : firstFault i (s.withRunning H v W) = firstFault i s := rfl
  unfold Machine.checked
  rw [hfault]
  cases hf : firstFault i s with
  | none => exact he hf
  | some c => exact .next (s.raise c) H v W

/-- A read of the digest is let through in `FINALIZED` only. -/
theorem AgreeButRunning.read {i : Instr} (hi : ∀ p, permitted i p = (p == .finalized)) (hp : s.PHASE ≠ .finalized)
    (e₁ e₂ : Result) : AgreeButRunning (Machine.checked i s e₁) (Machine.checked i (s.withRunning H v W) e₂) := by
  refine .checked s H v W fun hf => absurd ?_ hp
  obtain ⟨_, _, hperm, _⟩ := (firstFault_none_iff _ _).1 hf
  simpa [hi] using hperm

theorem AgreeButRunning.exec (i : Instr) (hp : s.PHASE ≠ .finalized) :
    AgreeButRunning (exec i s) (exec i (s.withRunning H v W)) := by
  cases i with
  | init => exact .checked (i := .init) s H v W fun _ => .next _ IV v W
  | wrw A w => exact .checked s H v W fun _ => .next _ H v W
  | wrb A b => exact .checked s H v W fun _ => .next _ H v W
  | next =>
    refine .checked s H v W fun _ => ?_
    change AgreeButRunning _ (if s.BLK.full then _ else _)
    cases s.BLK.full with
    | false => nofun
    | true => exact .next _ H (Working.ofH H) (parseInto W s.BLK.byte)
  | final => exact .checked s H v W fun _ => .next _ H v W
  | rdw A => exact .read s H v W (fun _ => rfl) hp _ _
  | rdb A => exact .read s H v W (fun _ => rfl) hp _ _
  | rdx A => exact .read s H v W (fun _ => rfl) hp _ _
  | rds => exact .checked (i := .rds) s H v W fun _ => .next _ H v W
  | expand =>
    by_cases ht : 16 ≤ s.t.val
    · rw [exec_expand_of_le ht, exec_expand_of_le (s := s.withRunning H v W) ht]
      exact .advance s .round
    · intro s' h
      exact absurd ((execExpand_next_iff s).1 ⟨s', h⟩) ht
  | round => exact .advance s .fold
  | fold => exact .next _ (foldInto H v) v W

theorem AgreeButRunning.accept (c : Command) (hp : s.PHASE ≠ .finalized) :
    AgreeButRunning (accept c s) (accept c (s.withRunning H v W)) := by
  unfold Machine.accept
  cases decodeCommand c.cmd c.wdata with
  | legal i => exact .exec s H v W i hp
  | illegal _ => exact .next (s.raise .illegalCommand) H v W

theorem AgreeButRunning.hostTurn (hp : s.PHASE ≠ .finalized) :
    AgreeButRunning (hostTurn s) (hostTurn (s.withRunning H v W)) := by
  cases hpending : s.pending with
  | nil =>
    rw [hostTurn_nil hpending, hostTurn_nil (s := s.withRunning H v W) hpending]
    exact .next s H v W
  | cons c rest =>
    cases hr : cmdReady s.SEQ c.cmd with
    | false =>
      rw [hostTurn_held hpending hr, hostTurn_held (s := s.withRunning H v W) hpending hr]
      exact .next s H v W
    | true =>
      rw [hostTurn_ready hpending hr, hostTurn_ready (s := s.withRunning H v W) hpending hr]
      exact .accept { s with pending := rest } H v W c hp

theorem AgreeButRunning.sequencerTurn (hp : s.PHASE ≠ .finalized) :
    AgreeButRunning (sequencerTurn s) (sequencerTurn (s.withRunning H v W)) := by
  cases hd : decodeSequencer s.SEQ.code with
  | legal i =>
    rw [sequencerTurn_legal hd, sequencerTurn_legal (s := s.withRunning H v W) hd]
    exact .exec s H v W i hp
  | illegal why =>
    rw [sequencerTurn_illegal hd, sequencerTurn_illegal (s := s.withRunning H v W) hd]
    exact .next s H v W

theorem AgreeButRunning.runTurn (turn : Turn) (hp : s.PHASE ≠ .finalized) :
    AgreeButRunning (runTurn turn s) (runTurn turn (s.withRunning H v W)) := by
  cases turn with
  | host => exact .hostTurn s H v W hp
  | poll => exact .accept s H v W ⟨rdsWord, 0⟩ hp
  | withdraw => exact .next { s with pending := s.pending.tail } H v W
  | reset => exact .next s.resetEvent s.resetEvent.H s.resetEvent.v s.resetEvent.W
  | sequencer => exact .sequencerTurn s H v W hp

end

/-- Settles O41: the turn is the same one, run from states that begin the step with the same phase and port. -/
theorem runningStateIsNotObservable : Obligations.RunningStateIsNotObservable := by
  unfold Obligations.RunningStateIsNotObservable
  intro s s' H v W hp h
  exact AgreeButRunning.runTurn s.beginStep H v W (nextTurn s) hp s' h

end Sys2Proof.Machine
end

section
/-! The order of writes to the block buffer: writes to different bytes commute, and of two writes to one byte the second
decides (R142). -/

namespace Sys2Proof.Machine

theorem Memory.write_cons_of_lt {a : Nat} {c : Host.Cell} (h : a < c.1) (m : Memory) (x : Byte) :
    Memory.write (c :: m) a x = (a, x) :: c :: m :=
  if_pos h

theorem Memory.write_cons_of_eq {a : Nat} {c : Host.Cell} (h : a = c.1) (m : Memory) (x : Byte) :
    Memory.write (c :: m) a x = (a, x) :: m :=
  (if_neg h.not_lt).trans (if_pos h)

theorem Memory.write_cons_of_gt {a : Nat} {c : Host.Cell} (h : c.1 < a) (m : Memory) (x : Byte) :
    Memory.write (c :: m) a x = c :: m.write a x :=
  (if_neg h.not_gt).trans (if_neg h.ne')

/-- The cell of the lower address comes first, whichever write is first. -/
theorem Memory.write_comm_of_lt (m : Memory) {a b : Nat} (hab : a < b) (x y : Byte) :
    (m.write a x).write b y = (m.write b y).write a x := by
  induction m with
  | nil => exact (write_cons_of_gt hab [] y).trans (write_cons_of_lt hab [] x).symm
  | cons c m ih =>
    rcases lt_trichotomy a c.1 with ha | ha | ha
    · rw [write_cons_of_lt ha, write_cons_of_gt hab]
      rcases lt_trichotomy b c.1 with hb | hb | hb
      · rw [write_cons_of_lt hb, write_cons_of_lt hab]
      · rw [write_cons_of_eq hb, write_cons_of_lt hab]
      · rw [write_cons_of_gt hb, write_cons_of_lt ha]
    · have hb : c.1 < b := ha ▸ hab
      rw [write_cons_of_eq ha, write_cons_of_gt hab, write_cons_of_gt hb, write_cons_of_eq ha]
    · have hb : c.1 < b := ha.trans hab
      rw [write_cons_of_gt ha, write_cons_of_gt hb, write_cons_of_gt hb, write_cons_of_gt ha, ih]

theorem Memory.write_comm (m : Memory) {a b : Nat} (hab : a ≠ b) (x y : Byte) :
    (m.write a x).write b y = (m.write b y).write a x :=
  hab.lt_or_gt.elim (m.write_comm_of_lt · x y) (m.write_comm_of_lt · y x |>.symm)

theorem Memory.write_write_same (m : Memory) (a : Nat) (x y : Byte) : (m.write a x).write a y = m.write a y := by
  induction m with
  | nil => exact write_cons_of_eq rfl [] y
  | cons c m ih =>
    rcases lt_trichotomy a c.1 with ha | ha | ha
    · rw [write_cons_of_lt ha, write_cons_of_lt ha, write_cons_of_eq rfl]
    · rw [write_cons_of_eq ha, write_cons_of_eq ha, write_cons_of_eq rfl]
    · rw [write_cons_of_gt ha, write_cons_of_gt ha, write_cons_of_gt ha, ih]

theorem State.writeByte_comm (s : State) {A B : Addr} (hAB : A ≠ B) (x y : Byte) :
    (s.writeByte A x).writeByte B y = (s.writeByte B y).writeByte A x := by
  have hne : A.toNat ≠ B.toNat := fun h => hAB (BitVec.eq_of_toNat_eq h)
  simp only [State.writeByte, s.BLK.write_comm hne, BitVec.or_assoc, BitVec.or_comm (1#64 <<< A.toNat)]

theorem State.writeByte_writeByte_same (s : State) (A : Addr) (x y : Byte) :
    (s.writeByte A x).writeByte A y = s.writeByte A y := by
  simp only [State.writeByte, Memory.write_write_same, BitVec.or_assoc, BitVec.or_self]

end Sys2Proof.Machine
end

section
/-! `WRBLOCK` as a run of sixteen word writes, each of which carries the loaded part of the block four bytes on
(R101). -/

namespace Sys2Proof.Machine

/-- One run after another. -/
theorem Runs.trans {m n : Nat} {s s₁ s' : State} {rs₁ rs : List Response} (h₁ : Runs m s rs₁ s₁)
    (h : Runs n s₁ rs s') : Runs (m + n) s (rs₁ ++ rs) s' := by
  induction m generalizing s rs₁ with
  | zero =>
    obtain ⟨rfl, rfl⟩ := h₁
    rwa [Nat.zero_add]
  | succ m ih =>
    obtain ⟨s₂, rest, hstep, rfl, h₂⟩ := h₁
    rw [Nat.succ_add]
    exact ⟨s₂, rest ++ rs, hstep, List.append_assoc _ _ _, ih h₂⟩

/-- A step that responds is a run with that response. -/
theorem Runs.of_step {s s' : State} {r : Response} (h : step s = .next s') (hr : s'.out = some r) :
    Runs 1 s [r] s' :=
  ⟨s', [], h, by rw [hr]; rfl, rfl, rfl⟩

/-- With the engine idle and no turn scheduled, an aligned word write that is presented is done next. -/
theorem step_wrw_of_idle {s : State} {A : Addr} {v : Word} {rest : List Command} (hA : A.toNat % 4 = 0)
    (hp : TakesBlocks s.PHASE) (hq : s.SEQ = .idle) (hs : s.schedule = [])
    (hpending : s.pending = transaction (.wrw A v) :: rest) :
    step s = .next { (s.writeWord A v).respond 0 with pending := rest } :=
  calc step s = accept (transaction (.wrw A v)) { s with pending := rest, out := none } :=
        step_of_idle_pending hq hs hpending
    _ = exec (.wrw A v) { s with pending := rest, out := none } := accept_transaction (i := .wrw A v) rfl rfl _
    _ = .next { (s.writeWord A v).respond 0 with pending := rest } := exec_wrw_of_takesBlocks v hA hp

/-- The bytes of word `i` of a block are those from `4i` on (R150). -/
theorem byteOf_blockWord (byte : Nat → Byte) (i : Nat) {k : Nat} (hk : k < 4) :
    byteOf k (blockWord byte i) = byte (4 * i + k) := by
  unfold blockWord
  match k, hk with
  | 0, _ => exact byteOf_be32_zero ..
  | 1, _ => exact byteOf_be32_one ..
  | 2, _ => exact byteOf_be32_two ..
  | 3, _ => exact byteOf_be32_three ..

/-- The first `n` bytes of `B` stand in the block buffer and are valid. -/
def LoadedUpTo (B : List Byte) (n : Nat) (s : State) : Prop :=
  ∀ a < n, s.BLK.read a = some (B.getD a 0) ∧ s.BV.getLsbD a = true

/-- Word `n` of `WRBLOCK` loads the next four bytes. -/
theorem LoadedUpTo.writeWord {B : List Byte} {n : Nat} {s : State} (h : LoadedUpTo B (4 * n) s) (hn : n < 16) :
    LoadedUpTo B (4 * (n + 1)) (s.writeWord (BitVec.ofNat 6 (4 * n)) (blockWord (fun j => B.getD j 0) n)) := by
  have haddr : (BitVec.ofNat 6 (4 * n)).toNat = 4 * n := Nat.mod_eq_of_lt (by omega)
  intro a ha
  rw [State.read_writeWord, State.getLsbD_writeWord_BV _ _ _ (by omega), haddr]
  by_cases hlow : a < 4 * n
  · obtain ⟨hread, hvalid⟩ := h a hlow
    have hout : ¬ (4 * n ≤ a ∧ a ≤ 4 * n + 3) := by omega
    rw [if_neg hout, hread, hvalid, Bool.or_true]
    exact ⟨rfl, rfl⟩
  · have hin : 4 * n ≤ a ∧ a ≤ 4 * n + 3 := by omega
    rw [if_pos hin, byteOf_blockWord _ _ (by omega), Nat.add_sub_cancel' hin.1, decide_eq_true hin]
    exact ⟨rfl, rfl⟩

/-- A block of which all 64 bytes are loaded is complete (R25). -/
theorem LoadedUpTo.complete {B : List Byte} {s : State} (h : LoadedUpTo B 64 s) : s.BV = 0xFFFFFFFFFFFFFFFF := by
  refine BitVec.eq_of_getLsbD_eq fun a ha => ?_
  rw [(h a ha).2, show (0xFFFFFFFFFFFFFFFF : BitVec 64) = BitVec.allOnes 64 from rfl, BitVec.getLsbD_allOnes,
    decide_eq_true ha]

/-- The next write of `WRBLOCK` stands after the writes before it. -/
theorem take_succ_wrBlock (B : List Byte) {n : Nat} (hn : n < 16) :
    (wrBlock B).take (n + 1) =
      (wrBlock B).take n ++
        [transaction (.wrw (BitVec.ofNat 6 (4 * n)) (blockWord (fun j => B.getD j 0) n))] := by
  have hlength : n < (wrBlock B).length := by simpa [wrBlock] using hn
  rw [← List.take_append_getElem hlength]
  simp [wrBlock]

/-- The first `n` word writes of `WRBLOCK`, one step each, load the first `4n` bytes and change nothing else but the
port. -/
theorem runs_wrBlock_take (B : List Byte) {n : Nat} (hn : n ≤ 16) {s : State} {rest : List Command}
    (hp : TakesBlocks s.PHASE) (hq : s.SEQ = .idle) (hs : s.schedule = [])
    (hpending : s.pending = (wrBlock B).take n ++ rest) :
    ∃ (m : Memory) (bv : BitVec 64), LoadedUpTo B (4 * n) { s with BLK := m, BV := bv } ∧
      Runs n s (List.replicate n ⟨0, 0⟩)
        { s with BLK := m, BV := bv, pending := rest, out := if n = 0 then s.out else some ⟨0, 0⟩ } := by
  induction n generalizing rest with
  | zero => exact ⟨s.BLK, s.BV, nofun, rfl, by rw [show rest = s.pending from hpending.symm]; rfl⟩
  | succ n ih =>
    rw [take_succ_wrBlock B hn, List.append_assoc] at hpending
    obtain ⟨m, bv, hloaded, hruns⟩ := ih (Nat.le_of_succ_le hn) hpending
    have haddr : ∀ n < 16, (BitVec.ofNat 6 (4 * n)).toNat % 4 = 0 := by decide
    refine ⟨_, _, hloaded.writeWord hn, ?_⟩
    rw [List.replicate_succ']
    exact hruns.trans (.of_step (step_wrw_of_idle (haddr n hn) hp hq hs rfl) rfl)

/-- Settles O19: writes of bytes commute and overwrite as writes of the memory do, and `WRBLOCK` is a run of word writes
(`runs_wrBlock_take`). -/
theorem loadingOrderDoesNotMatter : Obligations.LoadingOrderDoesNotMatter := by
  unfold Obligations.LoadingOrderDoesNotMatter
  refine ⟨fun A B x y s _ hAB hp => ?commute, fun A x y s hp => ?overwrite,
    fun B s rest hB hp hq hs hpending => ?block⟩
  case commute =>
    refine ⟨_, _, ((s.writeByte A x).writeByte B y).respond 0, exec_wrb_of_takesBlocks A x hp,
      exec_wrb_of_takesBlocks B y hp, exec_wrb_of_takesBlocks B y hp, ?_⟩
    rw [s.writeByte_comm hAB]
    exact exec_wrb_of_takesBlocks A x hp
  case overwrite =>
    refine ⟨_, ((s.writeByte A x).writeByte A y).respond 0, exec_wrb_of_takesBlocks A x hp,
      exec_wrb_of_takesBlocks A y hp, ?_⟩
    rw [s.writeByte_writeByte_same]
    exact exec_wrb_of_takesBlocks A y hp
  case block =>
    have hall : (wrBlock B).take 16 = wrBlock B := List.take_of_length_le (by simp [wrBlock])
    obtain ⟨m, bv, hloaded, hruns⟩ := runs_wrBlock_take B le_rfl hp hq hs (hall.symm ▸ hpending)
    obtain rfl : bv = 0xFFFFFFFFFFFFFFFF := hloaded.complete
    refine ⟨m, hruns, fun j hj => ?_⟩
    obtain ⟨hread, -⟩ := hloaded j (hj.trans_eq hB)
    rw [← List.getD_eq_getElem B 0 hj, hread]

end Sys2Proof.Machine
end

section
/-! `WRW` and `WRB` alone (R140, R141): their words on the command port, the checks they fail, and where they write. -/

namespace Sys2Proof.Machine

/-- The words of a row of mask `0xFFC0` are its first word and an address. -/
theorem cmdWord_zero_add (op : BitVec 4) (A : Addr) : cmdWord op 0 + A.setWidth 16 = cmdWord op A := by
  have hop : op.toNat < 16 := op.isLt
  have hA : A.toNat < 64 := A.isLt
  apply BitVec.eq_of_toNat_eq
  rw [BitVec.toNat_add, BitVec.toNat_setWidth_of_le (by decide), toNat_cmdWord, toNat_cmdWord,
    show (0 : Addr).toNat = 0 from rfl]
  omega

/-- Only a command of the row of `RDS` is accepted while the engine is busy (R130). -/
theorem cmdReady_cmdWord_iff_idle {op : BitVec 4} (hop : op ≠ 9) (A : Addr) (q : Seq) :
    cmdReady q (cmdWord op A) = true ↔ q = .idle := by
  refine cmdReady_iff_idle (fun h => hop ?_) q
  rw [← opField_cmdWord op A, h]
  rfl

/-- A misaligned `WRW` faults in every phase (R131 check 2). -/
theorem exec_wrw_of_misaligned {A : Addr} (hA : A.toNat % 4 ≠ 0) (v : Word) (s : State) :
    exec (.wrw A v) s = .next (s.raise .misaligned) :=
  checked_of_firstFault_some (by simp [firstFault, Instr.wf, misaligned, aligned, hA]) _

/-- Byte `k` of a word stands at `A + k` (R62). -/
theorem State.read_writeWord_byte (s : State) (A : Addr) (v : Word) {k : Nat} (hk : k < 4) :
    (s.writeWord A v).BLK.read (A.toNat + k) = some (byteOf k v) := by
  rw [State.read_writeWord, if_pos (by omega), Nat.add_sub_cancel_left]

/-- Settles O16: the two checks `WRW` can fail come in the order of R131; past both it is `State.writeWord`. -/
theorem wrwStoresAWordBigEndian : Obligations.WrwStoresAWordBigEndian := by
  unfold Obligations.WrwStoresAWordBigEndian
  refine ⟨fun A v s hA => exec_wrw_of_misaligned hA v s, fun A v s hA hp => ?phase, fun A v s hA hp => ?stored,
    fun A d => ?decoded, fun q A => ?accepted⟩
  case phase =>
    have hmis : misaligned (.wrw A v) = false := by simp [misaligned, aligned, hA]
    exact checked_of_firstFault_some (firstFault_of_not_permitted rfl hmis (Phase.takesBlocks_eq_false hp)) _
  case stored =>
    exact ⟨_, _, exec_wrw_of_takesBlocks v hA hp, s.read_writeWord_byte A v (k := 0) (by decide),
      s.read_writeWord_byte A v (k := 1) (by decide), s.read_writeWord_byte A v (k := 2) (by decide),
      s.read_writeWord_byte A v (k := 3) (by decide),
      fun a ha => (s.read_writeWord A v a).trans (if_neg (by omega)), fun a ha => s.getLsbD_writeWord_BV A v ha⟩
  case decoded =>
    change decodeCommand (cmdWord 2 0 + _) d = _
    rw [cmdWord_zero_add, decodeCommand_wrw]
  case accepted =>
    change cmdReady q (cmdWord 2 0 + _) = true ↔ _
    rw [cmdWord_zero_add, cmdReady_cmdWord_iff_idle (by decide)]

/-- Settles O17: the phase check is the only one `WRB` can fail; past it `WRB` is `State.writeByte`. -/
theorem wrbStoresOneByte : Obligations.WrbStoresOneByte := by
  unfold Obligations.WrbStoresOneByte
  refine ⟨fun A b s hp => ?phase, fun A b s hp => ?stored, fun A d => ?decoded, fun q A => ?accepted⟩
  case phase =>
    exact checked_of_firstFault_some
      (firstFault_of_not_permitted (i := .wrb A b) rfl rfl (Phase.takesBlocks_eq_false hp)) _
  case stored =>
    exact ⟨_, _, exec_wrb_of_takesBlocks A b hp, s.BLK.read_write_same A.toNat b,
      fun a ha => s.BLK.read_write_other b ha, fun a ha => s.getLsbD_writeByte_BV A b ha⟩
  case decoded =>
    change decodeCommand (cmdWord 3 0 + _) d = _
    rw [cmdWord_zero_add, decodeCommand_wrb]
  case accepted =>
    change cmdReady q (cmdWord 3 0 + _) = true ↔ _
    rw [cmdWord_zero_add, cmdReady_cmdWord_iff_idle (by decide)]

end Sys2Proof.Machine
end

section
/-! The message schedule (R151, R152): the words that the recurrence has reached stay, so `expandBlock` satisfies it at
every index; the schedule word in the library's rotations; and `EXPAND` before and at the last index. -/

namespace Sys2Proof.Machine

theorem expandWords_succ {m : Nat} (hm : m < 48) (W : Vector Word 64) :
    expandWords (m + 1) W =
      (expandWords m W).set (16 + m) (scheduleWord (expandWords m W) (16 + m) ⟨by omega, by omega⟩) := by
  rw [expandWords, dif_pos hm]

/-- A word that stands after `m` steps of the recurrence stands after every later one. -/
theorem getElem_expandWords_of_le (W : Vector Word 64) {m n i : Nat} (hmn : m ≤ n) (hn : n ≤ 48) (hi : i < 16 + m) :
    (expandWords n W)[i]'(by omega) = (expandWords m W)[i]'(by omega) := by
  induction n, hmn using Nat.le_induction with
  | base => rfl
  | succ n hmn ih =>
    have hother : 16 + n ≠ i := by omega
    simp only [expandWords_succ (show n < 48 by omega), Vector.getElem_set_ne _ _ hother]
    exact ih (by omega)

/-- The recurrence leaves the parsed words alone. -/
theorem getElem_expandWords_low (W : Vector Word 64) {n i : Nat} (hn : n ≤ 48) (hi : i < 16) :
    (expandWords n W)[i]'(by omega) = W[i]'(by omega) :=
  getElem_expandWords_of_le W n.zero_le hn hi

/-- Every word that the recurrence has reached is the one it gives from the words below. -/
theorem getElem_expandWords_high (W : Vector Word 64) {n i : Nat} (hn : n ≤ 48) (hi : 16 ≤ i) (hin : i < 16 + n) :
    (expandWords n W)[i]'(by omega) = scheduleWord (expandWords n W) i ⟨hi, by omega⟩ := by
  obtain ⟨m, rfl⟩ := Nat.exists_eq_add_of_le hi
  calc (expandWords n W)[16 + m]'(by omega)
      = (expandWords (m + 1) W)[16 + m]'(by omega) :=
        getElem_expandWords_of_le W (by omega) hn (by omega)
    _ = scheduleWord (expandWords m W) (16 + m) ⟨hi, by omega⟩ := by
        simp only [expandWords_succ (show m < 48 by omega), Vector.getElem_set_self]
    _ = scheduleWord (expandWords n W) (16 + m) ⟨hi, by omega⟩ :=
        scheduleWord_congr _ fun j _ hj => (getElem_expandWords_of_le W (by omega) hn hj).symm

/-- Settles O48: the recurrence keeps the sixteen parsed words, and a word once computed stays, as do those it reads. -/
theorem expansionSatisfiesTheRecurrence : Obligations.ExpansionSatisfiesTheRecurrence := by
  unfold Obligations.ExpansionSatisfiesTheRecurrence
  refine fun byte => ⟨fun i hi hlow => ?parsed, fun i hi hhigh => ?computed⟩
  case parsed => exact (getElem_expandWords_low _ le_rfl hlow).trans (parseInto_low _ byte i hlow)
  case computed => exact getElem_expandWords_high _ le_rfl hhigh hi

theorem s0_eq_rotateRight (x : Word) : s0 x = x.rotateRight 7 ^^^ x.rotateRight 18 ^^^ x >>> 3 := by
  rw [s0, rotr_eq_rotateRight x 7 (by decide), rotr_eq_rotateRight x 18 (by decide), shr]

theorem s1_eq_rotateRight (x : Word) : s1 x = x.rotateRight 17 ^^^ x.rotateRight 19 ^^^ x >>> 10 := by
  rw [s1, rotr_eq_rotateRight x 17 (by decide), rotr_eq_rotateRight x 19 (by decide), shr]

theorem scheduleWord_eq_add (W : Vector Word 64) (i : Nat) (hi : 16 ≤ i ∧ i < 64) :
    scheduleWord W i hi =
      W[i - 16]'(by omega) + s0 (W[i - 15]'(by omega)) + W[i - 7]'(by omega) + s1 (W[i - 2]'(by omega)) := by
  simp only [scheduleWord, add32_cons, add32_nil, add_zero, add_assoc]

theorem State.advance_of_lt {s : State} (ht : s.t.val < 63) (after : Seq) : s.advance after = { s with t := s.t + 1 } :=
  if_neg (Fin.ne_of_lt ht)

theorem State.advance_of_last {s : State} (ht : s.t.val = 63) (after : Seq) :
    s.advance after = { s with SEQ := after, t := 0 } :=
  if_pos (Fin.ext ht)

/-- Settles O20: `EXPAND` writes the schedule word, whose mixing functions are the library's rotations and shifts, and
advances the counter. -/
theorem expandComputesTheNextScheduleWord : Obligations.ExpandComputesTheNextScheduleWord := by
  unfold Obligations.ExpandComputesTheNextScheduleWord
  refine fun s h _ => ⟨scheduleWord s.W s.t.val ⟨h, s.t.isLt⟩, ?word, fun ht => ?before, fun ht => ?last⟩
  case word => simp only [scheduleWord_eq_add, s0_eq_rotateRight, s1_eq_rotateRight]
  case before =>
    rw [exec_expand_of_le h, State.advance_of_lt]
    exact ht
  case last =>
    rw [exec_expand_of_le h, State.advance_of_last]
    exact ht

end Sys2Proof.Machine
end

section
/-! Where the model stops (R40, R50, R152): a fault of the port is an answer, and `EXPAND` and `NEXT` alone can stop,
each where the spec gives no value. -/

namespace Sys2Proof.Machine

/-- A checked command whose effect is a next state answers, whatever its checks say (R131). -/
theorem checked_answers (i : Instr) (s e : State) : ∃ s', checked i s (.next e) = .next s' := by
  rcases checked_cases i s (.next e) with ⟨c, _, hfault⟩ | ⟨_, hpass⟩
  · exact ⟨s.raise c, hfault⟩
  · exact ⟨e, hpass⟩

theorem exec_expand_of_lt {s : State} (h : s.t.val < 16) : exec .expand s = .fault .expandIndex :=
  dif_neg (Nat.not_le.2 h)

/-- `NEXT` stops the model only behind its checks: with every valid bit set over a byte without a value (R50). -/
theorem exec_next_answers_or_stops (s : State) :
    (∃ s', exec .next s = .next s') ∨
      (s.BV = 0xFFFFFFFFFFFFFFFF ∧ ¬ BytesValued s ∧ exec .next s = .fault .byteWithoutValue) := by
  rcases checked_cases .next s (if s.BLK.full then .next (s.takeBlock.respond 0) else .fault .byteWithoutValue) with
    ⟨c, _, hfault⟩ | ⟨hnone, hpass⟩
  · exact .inl ⟨s.raise c, hfault⟩
  · by_cases hfull : s.BLK.full = true
    · exact .inl ⟨s.takeBlock.respond 0, hpass.trans (if_pos hfull)⟩
    · obtain ⟨_, hbv⟩ := of_firstFault_next hnone
      exact .inr ⟨hbv, fun hvalued => hfull (hvalued.full hbv), hpass.trans (if_neg hfull)⟩

/-- Settles O33: ten of the twelve instructions always answer; `EXPAND` stops below index 16, `NEXT` at a block called
complete that is not full. -/
theorem modelStopsOnlyWhereNoValueExists : Obligations.ModelStopsOnlyWhereNoValueExists := by
  unfold Obligations.ModelStopsOnlyWhereNoValueExists
  intro i s
  cases i with
  | expand =>
    rcases Nat.lt_or_ge s.t.val 16 with hlt | hge
    · exact .inr (.inl ⟨rfl, hlt, exec_expand_of_lt hlt⟩)
    · exact .inl ((execExpand_next_iff s).2 hge)
  | next => exact (exec_next_answers_or_stops s).imp_right fun hstop => .inr ⟨rfl, hstop⟩
  | init => exact .inl ⟨_, rfl⟩
  | rds => exact .inl ⟨_, rfl⟩
  | round => exact .inl ⟨_, rfl⟩
  | fold => exact .inl ⟨_, rfl⟩
  | _ => exact .inl (checked_answers _ s _)

end Sys2Proof.Machine
end

section
/-! The round (R161, R162) and the fold (R163): their sums and mixing functions in the library's terms, and `ROUND`
before and at the last index. -/

namespace Sys2Proof.Machine

theorem S0_eq_rotateRight (x : Word) : S0 x = x.rotateRight 2 ^^^ x.rotateRight 13 ^^^ x.rotateRight 22 := by
  rw [S0, rotr_eq_rotateRight x 2 (by decide), rotr_eq_rotateRight x 13 (by decide),
    rotr_eq_rotateRight x 22 (by decide)]

theorem S1_eq_rotateRight (x : Word) : S1 x = x.rotateRight 6 ^^^ x.rotateRight 11 ^^^ x.rotateRight 25 := by
  rw [S1, rotr_eq_rotateRight x 6 (by decide), rotr_eq_rotateRight x 11 (by decide),
    rotr_eq_rotateRight x 25 (by decide)]

theorem temp1_eq_add (v : Working) (k w : Word) : temp1 v k w = v.h + S1 v.e + ch v.e v.f v.g + k + w := by
  simp only [temp1, add32_cons, add32_nil, add_zero, add_assoc]

theorem temp2_eq_add (v : Working) : temp2 v = S0 v.a + maj v.a v.b v.c :=
  add32_pair _ _

theorem roundFn_eq_add (v : Working) (k w : Word) :
    roundFn v k w =
      ⟨temp1 v k w + temp2 v, v.a, v.b, v.c, v.d + temp1 v k w, v.e, v.f, v.g⟩ := by
  simp only [roundFn, add32_pair]

theorem foldInto_eq_add (H : Vector Word 8) (v : Working) :
    foldInto H v =
      #v[H[0] + v.a, H[1] + v.b, H[2] + v.c, H[3] + v.d, H[4] + v.e, H[5] + v.f, H[6] + v.g, H[7] + v.h] := by
  simp only [foldInto, add32_pair]

theorem exec_round (s : State) :
    exec .round s = .next ({ s with v := roundFn s.v K[s.t] s.W[s.t] }.advance .fold) := rfl

theorem exec_fold (s : State) :
    exec .fold s = .next { s with H := foldInto s.H s.v, PHASE := .processing, SEQ := .idle, t := 0 } := rfl

/-- Settles O21: `ROUND` writes the round of the old registers, whose mixing functions are the library's rotations, and
advances the counter. -/
theorem roundMixesTheWorkingRegisters : Obligations.RoundMixesTheWorkingRegisters := by
  unfold Obligations.RoundMixesTheWorkingRegisters
  refine fun s _ => ⟨temp1 s.v K[s.t] s.W[s.t], temp2 s.v, ?temp1, ?temp2, fun ht => ?before, fun ht => ?last⟩
  case temp1 => rw [temp1_eq_add, S1_eq_rotateRight]; rfl
  case temp2 => rw [temp2_eq_add, S0_eq_rotateRight]; rfl
  case before =>
    rw [exec_round, roundFn_eq_add, State.advance_of_lt]
    exact ht
  case last =>
    rw [exec_round, roundFn_eq_add, State.advance_of_last]
    exact ht

/-- Settles O22: `FOLD` writes the fold, which adds register by register. -/
theorem foldAddsTheWorkingRegisters : Obligations.FoldAddsTheWorkingRegisters := by
  unfold Obligations.FoldAddsTheWorkingRegisters
  intro s _
  rw [exec_fold, foldInto_eq_add]

/-- Settles O47: each assignment of the source's order reads only registers that no assignment before it wrote. -/
theorem sequentialAssignmentsGiveTheRound : Obligations.SequentialAssignmentsGiveTheRound := by
  unfold Obligations.SequentialAssignmentsGiveTheRound
  rintro v _ _ _ _ _ _ _ _ k w rfl rfl rfl rfl rfl rfl rfl rfl
  rfl

end Sys2Proof.Machine
end

section
/-! `expand(B)` and `block(S, B)` depend on the sixteen words of the block only: not on what stood in `W` (R153), and
not on anything beyond the 64 bytes. -/

namespace Sys2Proof.Machine

/-- The recurrence starts from the first sixteen words. -/
theorem expandWords_congr {W₁ W₂ : Vector Word 64} (h : ∀ i (hi : i < 16), W₁[i] = W₂[i]) {n i : Nat} (hn : n ≤ 48)
    (hi : i < 16 + n) : (expandWords n W₁)[i]'(by omega) = (expandWords n W₂)[i]'(by omega) := by
  induction n generalizing i with
  | zero => exact h i hi
  | succ n ih =>
    have hword : scheduleWord (expandWords n W₁) (16 + n) ⟨by omega, by omega⟩ =
        scheduleWord (expandWords n W₂) (16 + n) ⟨by omega, by omega⟩ :=
      scheduleWord_congr _ fun j _ hj => ih (by omega) hj
    simp only [expandWords_succ (show n < 48 by omega), Vector.getElem_set, hword]
    split
    next => rfl
    next hne => exact ih (by omega) (by omega)

/-- The schedule of a parsed block depends neither on the words that were there before nor on bytes beyond the
block. -/
theorem expandWords_parseInto (W : Vector Word 64) {byte byte' : Nat → Byte} (h : ∀ j < 64, byte j = byte' j) :
    expandWords 48 (parseInto W byte) = expandBlock byte' := by
  refine Vector.ext fun i hi => expandWords_congr (fun i hi => ?_) le_rfl hi
  rw [parseInto_low _ _ i hi, parseInto_low _ _ i hi, blockWord, blockWord, h _ (by omega), h _ (by omega),
    h _ (by omega), h _ (by omega)]

theorem blockFn_congr (S : Vector Word 8) {byte byte' : Nat → Byte} (h : ∀ j < 64, byte j = byte' j) :
    blockFn S byte = blockFn S byte' :=
  congrArg (compress S) (expandWords_parseInto _ h)

end Sys2Proof.Machine
end

section
/-! A block from `NEXT` to `FOLD` (R165): the engine steps of an undisturbed engine are the recurrence, the rounds and
the fold. -/

namespace Sys2Proof.Machine

/-- An advance from index `m`: after the last index the counter wraps around, and the sequencer goes on (R33). -/
theorem State.advance_of_counter {s : State} {m : Nat} (hm : m < 64) (ht : s.t = Fin.ofNat 64 m) (after : Seq) :
    s.advance after = { s with SEQ := if m + 1 = 64 then after else s.SEQ, t := Fin.ofNat 64 (m + 1) } := by
  have hval : s.t.val = m := by rw [ht]; exact Nat.mod_eq_of_lt hm
  by_cases hlast : m = 63
  · rw [State.advance_of_last (hval.trans hlast), hlast]
    rfl
  · have hnext : s.t + 1 = Fin.ofNat 64 (m + 1) := Fin.ext (by rw [Fin.val_add, hval]; rfl)
    rw [State.advance_of_lt (by omega), if_neg (by omega), hnext]

theorem rounds_succ {n : Nat} (hn : n < 64) (W : Vector Word 64) (v : Working) :
    rounds (n + 1) W v = roundFn (rounds n W v) K[n] W[n] := by
  rw [rounds, dif_pos hn]

/-- Undisturbed, the next step of a busy engine is the instruction that the sequencer's code selects. -/
theorem step_eq_exec_of_undisturbed {s : State} {i : Instr} (hu : Undisturbed s)
    (hi : decodeSequencer s.SEQ.code = .legal i) : step s = exec i { s with out := none } := by
  have hbusy : s.SEQ ≠ .idle := fun hq => by rw [hq] at hi; cases hi
  have hbegun : s.beginStep = { s with out := none } := by rw [State.beginStep, hu.1]; rfl
  rw [step_eq_runTurn (nextTurn_of_undisturbed hbusy hu), hbegun]
  exact sequencerTurn_legal hi

/-- A chain of steps that give no response is a run. -/
theorem Runs.of_steps {x : Nat → State} {n : Nat} (h : ∀ m < n, step (x m) = .next (x (m + 1)))
    (hout : ∀ m, (x m).out = none) : Runs n (x 0) [] (x n) := by
  induction n with
  | zero => exact ⟨rfl, rfl⟩
  | succ n ih =>
    have hlast : Runs 1 (x n) [] (x (n + 1)) := ⟨_, [], h n n.lt_succ_self, by rw [hout]; rfl, rfl, rfl⟩
    exact (ih fun m hm => h m (Nat.lt_succ_of_lt hm)).trans hlast

/-- No step reads the response lines. -/
theorem Runs.of_out_none {n : Nat} {s s' : State} {rs : List Response} (hn : n ≠ 0)
    (h : Runs n { s with out := none } rs s') : Runs n s rs s' := by
  obtain ⟨n, rfl⟩ := Nat.exists_eq_succ_of_ne_zero hn
  exact h

/-- The state `n` steps of `EXPAND` after the start of the block, for `n` up to 48. -/
def State.afterExpands (s : State) (n : Nat) : State :=
  { s with
    W := expandWords n s.W
    SEQ := if 16 + n = 64 then .round else .expand
    t := Fin.ofNat 64 (16 + n)
    out := none }

/-- The state `n` rounds after the last `EXPAND`, for `n` up to 64. -/
def State.afterRounds (s : State) (n : Nat) : State :=
  { s with
    v := rounds n s.W s.v
    SEQ := if n = 64 then .fold else .round
    t := Fin.ofNat 64 n
    out := none }

/-- The state after `FOLD`. -/
def State.folded (s : State) : State :=
  { s with H := foldInto s.H s.v, PHASE := .processing, SEQ := .idle, t := 0, out := none }

section
variable {s : State} (hu : Undisturbed s)
include hu

theorem undisturbed_afterExpands (n : Nat) : Undisturbed (s.afterExpands n) := hu

theorem undisturbed_afterRounds (n : Nat) : Undisturbed (s.afterRounds n) := hu

theorem step_afterExpands {n : Nat} (hn : n < 48) : step (s.afterExpands n) = .next (s.afterExpands (n + 1)) := by
  have hq : (s.afterExpands n).SEQ = .expand := if_neg (by omega)
  have ht : (s.afterExpands n).t.val = 16 + n := Nat.mod_eq_of_lt (by omega)
  calc step (s.afterExpands n)
      = exec .expand (s.afterExpands n) := step_eq_exec_of_undisturbed (undisturbed_afterExpands hu n) (by rw [hq]; rfl)
    _ = .next ({ s.afterExpands n with W := expandWords (n + 1) s.W }.advance .round) := by
        rw [exec_expand_of_le (by omega), expandWords_succ hn]
        simp only [ht]
        rfl
    _ = .next (s.afterExpands (n + 1)) := by
        rw [State.advance_of_counter (m := 16 + n) (by omega) rfl]
        simp only [hq]
        rfl

theorem step_afterRounds {n : Nat} (hn : n < 64) : step (s.afterRounds n) = .next (s.afterRounds (n + 1)) := by
  have hq : (s.afterRounds n).SEQ = .round := if_neg hn.ne
  have ht : (s.afterRounds n).t.val = n := Nat.mod_eq_of_lt hn
  calc step (s.afterRounds n)
      = exec .round (s.afterRounds n) := step_eq_exec_of_undisturbed (undisturbed_afterRounds hu n) (by rw [hq]; rfl)
    _ = .next ({ s.afterRounds n with v := rounds (n + 1) s.W s.v }.advance .fold) := by
        rw [exec_round, rounds_succ hn]
        simp only [Fin.getElem_fin, ht]
        rfl
    _ = .next (s.afterRounds (n + 1)) := by
        rw [State.advance_of_counter hn rfl]
        simp only [hq]
        rfl

theorem step_fold_of_undisturbed (hq : s.SEQ = .fold) : step s = .next s.folded :=
  step_eq_exec_of_undisturbed (i := .fold) hu (by rw [hq]; rfl)

theorem runs_expands (hq : s.SEQ = .expand) (ht : s.t = 16) : Runs 48 s [] (s.afterExpands 48) := by
  have hstart : s.afterExpands 0 = { s with out := none } := by cases s; cases hq; cases ht; rfl
  have hruns : Runs 48 (s.afterExpands 0) [] (s.afterExpands 48) :=
    .of_steps (fun _ hm => step_afterExpands hu hm) fun _ => rfl
  rw [hstart] at hruns
  exact hruns.of_out_none (by decide)

theorem runs_rounds (hq : s.SEQ = .round) (ht : s.t = 0) : Runs 64 s [] (s.afterRounds 64) := by
  have hstart : s.afterRounds 0 = { s with out := none } := by cases s; cases hq; cases ht; rfl
  have hruns : Runs 64 (s.afterRounds 0) [] (s.afterRounds 64) :=
    .of_steps (fun _ hm => step_afterRounds hu hm) fun _ => rfl
  rw [hstart] at hruns
  exact hruns.of_out_none (by decide)

theorem runs_fold (hq : s.SEQ = .fold) : Runs 1 s [] s.folded :=
  ⟨s.folded, [], step_fold_of_undisturbed hu hq, rfl, rfl, rfl⟩

/-- The 113 engine steps of a block whose words are parsed (R41, R165). -/
theorem runs_block_steps (hq : s.SEQ = .expand) (ht : s.t = 16) :
    Runs 113 s [] ((s.afterExpands 48).afterRounds 64).folded := by
  have hu₁ : Undisturbed (s.afterExpands 48) := undisturbed_afterExpands hu 48
  have hu₂ : Undisturbed ((s.afterExpands 48).afterRounds 64) := undisturbed_afterRounds hu₁ 64
  exact (runs_expands hu hq ht).trans ((runs_rounds hu₁ rfl rfl).trans (runs_fold hu₂ rfl))

end

/-- An accepted `NEXT` with a complete block, in a state of a run. -/
theorem step_next_of_idle {s : State} {d : Word} {rest : List Command} (h : Inv s) (hq : s.SEQ = .idle)
    (hp : TakesBlocks s.PHASE) (hbv : s.BV = 0xFFFFFFFFFFFFFFFF) (hs : s.schedule = [])
    (hpending : s.pending = ⟨0x4000, d⟩ :: rest) :
    step s = .next { s.takeBlock.respond 0 with pending := rest } :=
  have hdecode : decodeCommand 0x4000 d = .legal .next := rfl
  calc step s = accept ⟨0x4000, d⟩ { s with pending := rest, out := none } := step_of_idle_pending hq hs hpending
    _ = exec .next { s with pending := rest, out := none } := accept_legal (c := ⟨0x4000, d⟩) _ hdecode
    _ = .next { s.takeBlock.respond 0 with pending := rest } := exec_next_of_complete hp hbv h.valued

/-- Settles O49: the step of `NEXT`, then the steps of the block, whose schedule is `expand(BLK)` whatever `W` held. -/
theorem blockIsFoldedAfter113Steps : Obligations.BlockIsFoldedAfter113Steps := by
  unfold Obligations.BlockIsFoldedAfter113Steps
  intro s d rest h hq hp hbv hs hpending hrest
  have haccept := step_next_of_idle h hq hp hbv hs hpending
  have hblock := runs_block_steps (s := { s.takeBlock.respond 0 with pending := rest }) ⟨hs, hrest⟩ rfl rfl
  have hW : expandWords 48 (parseInto s.W s.BLK.byte) = expandBlock s.BLK.byte :=
    expandWords_parseInto s.W fun _ _ => rfl
  refine ⟨rounds 64 (expandBlock s.BLK.byte) (Working.ofH s.H), ?_⟩
  have hruns := (Runs.of_step haccept rfl).trans hblock
  simp only [State.afterExpands, State.afterRounds, State.folded, State.takeBlock, State.respond, hW] at hruns
  exact hruns

end Sys2Proof.Machine
end

section
/-! Blocks in turn (R166, R101): each command `BLOCK B` is a run of sixteen writes, `NEXT` and 113 engine steps that
ends where the next one may begin. -/

namespace Sys2Proof.Machine

theorem Inv.runs {n : Nat} {s s' : State} {rs : List Response} (hinv : Inv s) (h : Runs n s rs s') : Inv s' := by
  induction n generalizing s rs with
  | zero => obtain ⟨_, rfl⟩ := h; exact hinv
  | succ n ih => obtain ⟨_, _, hstep, _, hrest⟩ := h; exact ih (hinv.step hstep) hrest

/-- An idle state of a run in a phase that takes blocks, with the transactions `cmds` before the port and no turn
scheduled. -/
structure AwaitsBlocks (s : State) (cmds : List Command) : Prop where
  inv : Inv s
  idle : s.SEQ = .idle
  phase : TakesBlocks s.PHASE
  schedule : s.schedule = []
  pending : s.pending = cmds

/-- `WRBLOCK B` completes the block, whose bytes are then those of `B`. -/
theorem AwaitsBlocks.runs_wrBlock {s : State} {B : List Byte} {rest : List Command}
    (h : AwaitsBlocks s (wrBlock B ++ rest)) :
    ∃ s', Runs 16 s (List.replicate 16 ⟨0, 0⟩) s' ∧ AwaitsBlocks s' rest ∧ s'.BV = 0xFFFFFFFFFFFFFFFF ∧
      (∀ j < 64, s'.BLK.byte j = B.getD j 0) ∧ s'.H = s.H := by
  have hall : (wrBlock B).take 16 = wrBlock B := List.take_of_length_le (by simp [wrBlock])
  obtain ⟨m, bv, hloaded, hruns⟩ :=
    runs_wrBlock_take B le_rfl h.phase h.idle h.schedule (hall.symm ▸ h.pending)
  exact ⟨_, hruns, ⟨h.inv.runs hruns, h.idle, h.phase, h.schedule, rfl⟩, hloaded.complete,
    fun j hj => Memory.byte_eq (hloaded j hj).1, rfl⟩

/-- `BLOCK B` takes 16 steps for its writes and 1 + 113 for `NEXT` and the engine. -/
theorem AwaitsBlocks.runs_block {s : State} {B : List Byte} {rest : List Command}
    (h : AwaitsBlocks s (blockCommands B ++ rest)) (hrest : ∀ c, rest.head? = some c → c.cmd ≠ rdsWord) :
    ∃ s', Runs 130 s (List.replicate 17 ⟨0, 0⟩) s' ∧ AwaitsBlocks s' rest ∧ s'.PHASE = .processing ∧
      s'.H = blockFn s.H fun j => B.getD j 0 := by
  rw [blockCommands, List.append_assoc] at h
  obtain ⟨s₁, hload, h₁, hbv, hbytes, hH⟩ := h.runs_wrBlock
  obtain ⟨v, hfold⟩ :=
    blockIsFoldedAfter113Steps s₁ 0 rest h₁.inv h₁.idle h₁.phase hbv h₁.schedule h₁.pending hrest
  refine ⟨_, hload.trans hfold, ⟨h₁.inv.runs hfold, rfl, .inr rfl, h₁.schedule, rfl⟩, rfl, ?digest⟩
  case digest => rw [← hH]; exact blockFn_congr s₁.H hbytes

/-- The transactions of blocks begin with a word write. -/
theorem head_flatMap_blockCommands_ne_rds {blocks : List (List Byte)} {rest : List Command}
    (hrest : ∀ c, rest.head? = some c → c.cmd ≠ rdsWord) :
    ∀ c, (blocks.flatMap blockCommands ++ rest).head? = some c → c.cmd ≠ rdsWord := by
  cases blocks with
  | nil => exact hrest
  | cons B blocks =>
    rintro _ ⟨⟩
    exact show cmdWord 2 0 ≠ rdsWord by decide

/-- The commands of any list of blocks chain the running state. -/
theorem AwaitsBlocks.runs_blocks {s : State} (blocks : List (List Byte)) {rest : List Command}
    (h : AwaitsBlocks s (blocks.flatMap blockCommands ++ rest))
    (hrest : ∀ c, rest.head? = some c → c.cmd ≠ rdsWord) :
    ∃ s', Runs (130 * blocks.length) s (List.replicate (17 * blocks.length) ⟨0, 0⟩) s' ∧ AwaitsBlocks s' rest ∧
      s'.PHASE = (if blocks = [] then s.PHASE else .processing) ∧ s'.H = chain s.H blocks := by
  induction blocks generalizing s with
  | nil => exact ⟨s, ⟨rfl, rfl⟩, h, rfl, rfl⟩
  | cons B blocks ih =>
    rw [List.flatMap_cons, List.append_assoc] at h
    obtain ⟨s₁, hblock, h₁, hphase₁, hH₁⟩ := h.runs_block (head_flatMap_blockCommands_ne_rds hrest)
    obtain ⟨s', hblocks, h', hphase, hH⟩ := ih h₁
    refine ⟨s', ?runs, h', ?phase, ?digest⟩
    case runs =>
      rw [List.length_cons, Nat.mul_succ, Nat.mul_succ, Nat.add_comm, Nat.add_comm (17 * _), List.replicate_add]
      exact hblock.trans hblocks
    case phase => rw [hphase, hphase₁, ite_self, if_neg (List.cons_ne_nil B blocks)]
    case digest => rw [hH, hH₁]; rfl

/-- Settles O50: `AwaitsBlocks.runs_blocks`, by induction on the blocks. -/
theorem blocksChainTheRunningState : Obligations.BlocksChainTheRunningState := by
  unfold Obligations.BlocksChainTheRunningState
  intro s blocks rest hinv hq hp hs hpending _ hne hrest
  obtain ⟨s', hruns, h', hphase, hH⟩ := AwaitsBlocks.runs_blocks blocks ⟨hinv, hq, hp, hs, hpending⟩ hrest
  exact ⟨s', hruns, hH, hphase.trans (if_neg hne), h'.idle, h'.pending, h'.schedule⟩

end Sys2Proof.Machine
end

section
/-! The digest serializer (R170 to R173): the words, bytes and characters it returns as numbers, the checks its commands
fail, and their words on the command port. -/

namespace Sys2Proof.Machine

/-- Only `RDW` among the reads can be misaligned, and it then faults in every phase (R131 check 2). -/
theorem exec_rdw_of_misaligned {A : Addr} (hA : A.toNat < 32) (hmis : A.toNat % 4 ≠ 0) (s : State) :
    exec (.rdw A) s = .next (s.raise .misaligned) :=
  checked_of_firstFault_some (by simp [firstFault, Instr.wf, digAddrExists, misaligned, aligned, hA, hmis]) _

theorem exec_rdb_of_finalized {s : State} {A : Addr} (hA : A.toNat < 32) (hp : s.PHASE = .finalized) :
    exec (.rdb A) s = .next (s.respond ((digByte s.H (digAddr A)).setWidth 32)) :=
  checked_of_firstFault_none
    ((firstFault_none_iff (.rdb A) s).2 ⟨decide_eq_true hA, rfl, by simp [permitted, hp], nofun⟩) _

/-- A word of the row of `RDW` or `RDB` with an address beyond the digest is reserved (R97). -/
theorem decodeCommand_illegal_of_beyond_digest {op : BitVec 4} (hop : op.toNat = 6 ∨ op.toNat = 7) {A : Addr}
    (hA : 32 ≤ A.toNat) (d : Word) : ∃ why, decodeCommand (cmdWord op A) d = .illegal why := by
  rw [decodeCommand_illegal_iff, opField_cmdWord, addrField_cmdWord]
  exact .inr (.inr (.inr (.inr ⟨hA, hop⟩)))

theorem toNat_byteOf (k : Nat) (x : Word) : (byteOf k x).toNat = x.toNat / 2 ^ (24 - 8 * k) % 256 := by
  rw [byteOf, BitVec.extractLsb'_toNat, Nat.shiftRight_eq_div_pow]

theorem toNat_digByte (H : Vector Word 8) {A : Addr} (hA : A.toNat < 32) :
    (digByte H (digAddr A)).toNat =
      (H[A.toNat / 4]'(by omega)).toNat / 2 ^ (24 - 8 * (A.toNat % 4)) % 256 := by
  have haddr : (digAddr A).val = A.toNat := Nat.mod_eq_of_lt hA
  simp only [digByte, toNat_byteOf, haddr]

theorem toNat_hexCode (nib : BitVec 4) :
    (hexCode nib).toNat = if nib.toNat ≤ 9 then 0x30 + nib.toNat else 0x61 + nib.toNat - 10 := by
  revert nib
  decide

/-- Character `A` of `HEX` renders the 4-bit field `A mod 8` of `H[A div 8]`, counted from the most significant (R65):
an even `A` has the high half of byte `A div 2` of `DIG`, an odd one the low half. -/
theorem exists_hexChar_eq_hexCode (H : Vector Word 8) (A : Addr) :
    ∃ nib : BitVec 4, hexChar H A = hexCode nib ∧
      nib.toNat = (H[A.toNat / 8]'(by omega)).toNat / 2 ^ (28 - 4 * (A.toNat % 8)) % 16 := by
  have hword : A.toNat / 2 / 4 = A.toNat / 8 := Nat.div_div_eq_div_mul _ _ _
  have hbyte : (digByte H (hexDigAddr A)).toNat =
      (H[A.toNat / 8]'(by omega)).toNat / 2 ^ (24 - 8 * (A.toNat / 2 % 4)) % 256 := by
    simp only [digByte, toNat_byteOf, hexDigAddr, hword]
  rw [hexChar]
  split
  next heven =>
    refine ⟨_, rfl, ?_⟩
    have hshift : 28 - 4 * (A.toNat % 8) = 24 - 8 * (A.toNat / 2 % 4) + 4 := by omega
    rw [BitVec.extractLsb'_toNat, Nat.shiftRight_eq_div_pow, hbyte, hshift, Nat.pow_add, ← Nat.div_div_eq_div_mul]
    omega
  next hodd =>
    refine ⟨_, rfl, ?_⟩
    have hshift : 28 - 4 * (A.toNat % 8) = 24 - 8 * (A.toNat / 2 % 4) := by omega
    rw [BitVec.extractLsb'_toNat, Nat.shiftRight_zero, hbyte, hshift]
    omega

theorem getElem?_assemble (H : Vector Word 8) {A : Addr} (hA : A.toNat < 32) :
    (assemble H)[A.toNat]? = some (digByte H (digAddr A)) := by
  rw [assemble_eq_map_digByte, List.getElem?_map, List.getElem?_range hA]
  rfl

theorem getElem?_hexString_assemble (H : Vector Word 8) (A : Addr) :
    (hexString (assemble H))[A.toNat]? = some (hexChar H A) := by
  rw [hexString_assemble_eq_map_hexChar, List.getElem?_map, List.getElem?_range A.isLt, Option.map_some,
    BitVec.ofNat_toNat, BitVec.setWidth_eq]

/-- Settles O27: what `RDB` and `RDX` respond with is the element of the list at their address. -/
theorem readsAgreeWithAssembleAndHex : Obligations.ReadsAgreeWithAssembleAndHex := by
  unfold Obligations.ReadsAgreeWithAssembleAndHex
  intro s hp
  refine ⟨?bytes, ?characters, fun A hA => ⟨_, getElem?_assemble s.H hA, exec_rdb_of_finalized hA hp⟩,
    fun A => ⟨_, getElem?_hexString_assemble s.H A, exec_rdx_of_finalized A hp⟩⟩
  case bytes => rw [assemble_eq_map_digByte, List.length_map, List.length_range]
  case characters => rw [hexString_assemble_eq_map_hexChar, List.length_map, List.length_range]

/-- Settles O28: of the outcomes of a step (`step_outcome`) that write `H` or `PHASE`, `FOLD` does not occur in
`FINALIZED`, where the engine is idle, and `FINAL` does not pass its checks there; `RESET` and `INIT` are left. -/
theorem finalizedDigestIsStable : Obligations.FinalizedDigestIsStable := by
  unfold Obligations.FinalizedDigestIsStable
  intro s s' hinv hp h
  cases step_outcome h with
  | port p eq => exact .inr (.inr (by rw [eq]; exact ⟨hp, rfl⟩))
  | fault p c eq => exact .inr (.inr (by rw [eq]; exact ⟨hp, rfl⟩))
  | reset turn eq => exact .inl turn
  | effect p i issued passes eff =>
    by_cases hinit : i = .init
    · subst hinit
      obtain ⟨turn, _, hword⟩ := issued.presented rfl (by decide)
      exact .inr (.inl ⟨turn, hword⟩)
    have hfinal : i ≠ .final := by
      rintro rfl
      exact absurd (hp.symm.trans (PHASE_of_firstFault_final passes)) (by decide)
    have hfold : i ≠ .fold := by
      rintro rfl
      have hq : s.SEQ = .fold := issued.admitted
      have hphase := (hinv.busyPhase (by simp [hq])).1
      simp [hp] at hphase
    exact .inr (.inr ⟨(eff.PHASE_eq hinit hfinal hfold).trans hp, eff.H_eq hinit hfold⟩)

/-- Settles O24: the checks of `RDW` come in the order of R131, and a word of `DIG` at a multiple of 4 is a word of
`H`. -/
theorem rdwReturnsAWordOfTheDigest : Obligations.RdwReturnsAWordOfTheDigest := by
  unfold Obligations.RdwReturnsAWordOfTheDigest
  have hword (A : Addr) : (0x6000 : CmdWord) + A.setWidth 16 = cmdWord 6 A := cmdWord_zero_add 6 A
  simp only [hword]
  refine ⟨fun A s hA hmis => exec_rdw_of_misaligned hA hmis s, fun A s hA haligned hp => ?phase,
    fun A s hA haligned hp => ?word, fun A d hA => decodeCommand_rdw A d hA,
    fun A d hA => decodeCommand_illegal_of_beyond_digest (by decide) hA d,
    fun q A => cmdReady_cmdWord_iff_idle (by decide) A q⟩
  case phase =>
    have hmis : misaligned (.rdw A) = false := by simp [misaligned, aligned, haligned]
    exact checked_of_firstFault_some
      (firstFault_of_not_permitted (i := .rdw A) (decide_eq_true hA) hmis (by simp [permitted, hp])) _
  case word =>
    have haddr : (digAddr A).val = A.toNat := Nat.mod_eq_of_lt hA
    rw [exec_rdw_of_finalized hA haligned hp, digWord_aligned _ _ (haddr ▸ haligned)]
    simp only [haddr]
    rfl

/-- Settles O25: the phase check is the only one an encoded `RDB` can fail; past it the response is `toNat_digByte`. -/
theorem rdbReturnsAByteOfTheDigest : Obligations.RdbReturnsAByteOfTheDigest := by
  unfold Obligations.RdbReturnsAByteOfTheDigest
  have hword (A : Addr) : (0x7000 : CmdWord) + A.setWidth 16 = cmdWord 7 A := cmdWord_zero_add 7 A
  simp only [hword]
  refine ⟨fun A s hA hp => ?phase, fun A s hA hp => ⟨_, exec_rdb_of_finalized hA hp, ?byte⟩,
    fun A d hA => decodeCommand_rdb A d hA, fun A d hA => decodeCommand_illegal_of_beyond_digest (by decide) hA d,
    fun q A => cmdReady_cmdWord_iff_idle (by decide) A q⟩
  case phase =>
    exact checked_of_firstFault_some
      (firstFault_of_not_permitted (i := .rdb A) (decide_eq_true hA) rfl (by simp [permitted, hp])) _
  case byte => rw [BitVec.toNat_setWidth_of_le (by decide), toNat_digByte s.H hA]

/-- Settles O26: the phase check is the only one `RDX` can fail; past it the response is the code of the 4-bit field of
`exists_hexChar_eq_hexCode`. -/
theorem rdxReturnsACharacterOfTheDigest : Obligations.RdxReturnsACharacterOfTheDigest := by
  unfold Obligations.RdxReturnsACharacterOfTheDigest
  have hword (A : Addr) : (0x8000 : CmdWord) + A.setWidth 16 = cmdWord 8 A := cmdWord_zero_add 8 A
  simp only [hword]
  refine ⟨fun A s hp => ?phase, fun A s hp => ?character, decodeCommand_rdx,
    fun q A => cmdReady_cmdWord_iff_idle (by decide) A q⟩
  case phase =>
    exact checked_of_firstFault_some
      (firstFault_of_not_permitted (i := .rdx A) rfl rfl (by simp [permitted, hp])) _
  case character =>
    obtain ⟨nib, hchar, hnib⟩ := exists_hexChar_eq_hexCode s.H A
    refine ⟨_, _, exec_rdx_of_finalized A hp, rfl, ?_⟩
    rw [BitVec.toNat_setWidth_of_le (by decide), hchar, toNat_hexCode, hnib]

end Sys2Proof.Machine
end

section
/-! The padding of a message (R181, R182): the message, `0x80`, the zeros that bring the length to 56 modulo 64, and the
length field, which decodes to the number it was written from. -/

namespace Sys2Proof.Machine

/-- With enough fuel, the loop of R181 appends zeros up to the first length that is 56 modulo 64. -/
theorem zeroFill_eq_append {k fuel : Nat} {P : List Byte} (hk : (P.length + k) % 64 = 56) (hleast : k < 64)
    (hfuel : k ≤ fuel) : zeroFill fuel P = P ++ List.replicate k 0 := by
  induction k generalizing fuel P with
  | zero =>
    rw [List.replicate_zero, List.append_nil]
    cases fuel with
    | zero => rfl
    | succ fuel => exact if_pos hk
  | succ k ih =>
    obtain ⟨fuel, rfl⟩ := Nat.exists_eq_add_of_lt hfuel
    have hlength : (P ++ [(0 : Byte)]).length = P.length + 1 := List.length_append
    have hgoes : ¬ P.length % Config.blockBytes = 56 := by unfold Config.blockBytes; omega
    rw [zeroFill, if_neg hgoes, ih (by omega) (by omega) (by omega), List.append_assoc]
    rfl

/-- The number of zero bytes in the padding of a message of `L` bytes (R181). -/
def padZeros (L : Nat) : Nat := 63 - (L + 8) % 64

theorem pad_eq_append (m : List Byte) :
    pad m = m ++ 0x80 :: List.replicate (padZeros m.length) 0 ++ be64 (8 * m.length) := by
  have hlength : (m ++ [(0x80 : Byte)]).length = m.length + 1 := List.length_append
  have hzeros : zeroFill 64 (m ++ [0x80]) = m ++ [0x80] ++ List.replicate (padZeros m.length) 0 :=
    zeroFill_eq_append (by rw [hlength, padZeros]; omega) (by rw [padZeros]; omega) (by rw [padZeros]; omega)
  rw [pad, hzeros, List.append_assoc m]
  rfl

theorem length_be64 (x : Nat) : (be64 x).length = 8 := by
  rw [be64, List.length_map, List.length_range]

theorem length_pad (m : List Byte) : (pad m).length = 64 * ((m.length + 8) / 64 + 1) := by
  rw [pad_eq_append, List.length_append, List.length_append, List.length_cons, List.length_replicate, length_be64,
    padZeros]
  omega

/-- The first `n` bytes of the length field are the number's leading `8n` bits. -/
theorem fromBytes_take_be64 {x : Nat} (hx : x < 2 ^ 64) {n : Nat} (hn : n ≤ 8) :
    fromBytes ((be64 x).take n) = x / 2 ^ (64 - 8 * n) := by
  induction n with
  | zero => exact (Nat.div_eq_of_lt hx).symm
  | succ n ih =>
    have hlt : n < (be64 x).length := (length_be64 x).symm ▸ hn
    have hbyte : (be64 x)[n].toNat = x / 2 ^ (56 - 8 * n) % 256 := by
      simp only [be64, List.getElem_map, List.getElem_range, BitVec.extractLsb'_toNat, BitVec.toNat_ofNat,
        Nat.mod_eq_of_lt hx, Nat.shiftRight_eq_div_pow]
    have hshift : 64 - 8 * n = 56 - 8 * n + 8 := by omega
    rw [← List.take_append_getElem hlt, fromBytes, List.foldl_append, ← fromBytes, ih (by omega), List.foldl_cons,
      List.foldl_nil, hbyte, hshift, Nat.pow_add, ← Nat.div_div_eq_div_mul, Nat.div_add_mod',
      show 64 - 8 * (n + 1) = 56 - 8 * n by omega]

theorem fromBytes_be64 {x : Nat} (hx : x < 2 ^ 64) : fromBytes (be64 x) = x := by
  have h := fromBytes_take_be64 hx (le_refl 8)
  rwa [List.take_of_length_le (length_be64 x).le, Nat.pow_zero, Nat.div_one] at h

/-- Settles O51: the parts of `pad(m)` are those of `pad_eq_append`, and `length_pad` gives its length. -/
theorem paddingIsTheLeastWholeNumberOfBlocks : Obligations.PaddingIsTheLeastWholeNumberOfBlocks := by
  unfold Obligations.PaddingIsTheLeastWholeNumberOfBlocks
  intro m hm
  have hlength := length_pad m
  have hbody : (pad m).length - 8 = (m ++ 0x80 :: List.replicate (padZeros m.length) 0).length := by
    rw [pad_eq_append, List.length_append (bs := be64 _), length_be64, Nat.add_sub_cancel]
  refine ⟨?message, ?marker, fun j hlow hhigh => ?zeros, ?lengthField, by omega, by omega, fun k hk => by omega, hlength,
    fun k hk => by omega⟩
  case message => rw [pad_eq_append, List.append_assoc, List.take_left]
  case marker => simp [pad_eq_append]
  case zeros =>
    obtain ⟨i, rfl⟩ := Nat.exists_eq_add_of_lt hlow
    have hi : i < padZeros m.length := by rw [padZeros]; omega
    have hindex : m.length + i + 1 - m.length = i + 1 := by omega
    rw [pad_eq_append, List.getElem?_append_left (hbody ▸ hhigh), List.getElem?_append_right hlow.le, hindex,
      List.getElem?_cons_succ, List.getElem?_replicate_of_lt hi]
  case lengthField =>
    rw [hbody, pad_eq_append, List.drop_left]
    exact fromBytes_be64 (by omega)

end Sys2Proof.Machine
end

section
/-! The transactions of `HASH` (R183, R184): how many there are, and for which messages they are issued. -/

namespace Sys2Proof.Machine

theorem length_paddedBlocks (m : List Byte) : (paddedBlocks m).length = (m.length + 8) / 64 + 1 := by
  rw [paddedBlocks, blocksOf, List.length_map, List.length_range, length_pad]
  exact Nat.mul_div_cancel_left _ (by decide)

theorem length_blockCommands (B : List Byte) : (blockCommands B).length = 17 := by
  simp [blockCommands, wrBlock]

theorem length_hashCommands (m : List Byte) :
    (hashCommands m).length = 1 + 17 * ((m.length + 8) / 64 + 1) + 1 + 8 := by
  have hblocks : ((paddedBlocks m).flatMap blockCommands).length = 17 * ((m.length + 8) / 64 + 1) := by
    simp only [List.length_flatMap, length_blockCommands, List.map_const', List.sum_replicate_nat,
      length_paddedBlocks, Nat.mul_comm]
  have hreads : rdDigest.length = 8 := rfl
  rw [hashCommands, List.length_append, List.length_cons, List.length_cons, hblocks, hreads]
  omega

/-- Settles O52: the check of R183 is the bound, and `length_hashCommands` counts the transactions. -/
theorem overlongMessagesIssueNoCommand : Obligations.OverlongMessagesIssueNoCommand := by
  unfold Obligations.OverlongMessagesIssueNoCommand
  intro m
  refine ⟨fun h => if_pos ?overlong, fun h => ⟨if_neg ?fits, length_hashCommands m⟩⟩
  case overlong => exact Nat.sub_one_lt_of_le (Nat.two_pow_pos 61) h
  case fits => exact Nat.not_lt.2 (Nat.le_sub_one_of_lt h)

end Sys2Proof.Machine
end

section
/-! `HASH` as a run (R184, R185): the block that is left over is finished, `INIT` opens the computation, the padded blocks
chain `IV`, `FINAL` closes it, and the digest is read. -/

namespace Sys2Proof.Machine

/-- Left undisturbed, a state of a run becomes idle after the engine steps left, with the port as it was. -/
theorem runs_remaining {s : State} (h : Inv s) (hu : Undisturbed s) :
    ∃ s', Runs (remaining s) s [] s' ∧ Inv s' ∧ s'.SEQ = .idle ∧ s'.pending = s.pending ∧ s'.schedule = s.schedule := by
  by_cases hq : s.SEQ = .idle
  · rw [remaining_of_idle hq]
    exact ⟨s, ⟨rfl, rfl⟩, h, hq, rfl, rfl⟩
  · obtain ⟨s', hruns, hinv, hleft, -, hpending, hschedule⟩ := runs_of_undisturbed (remaining s) h hq hu le_rfl
    exact ⟨s', hruns, hinv, (remaining_eq_zero_iff s').1 (by omega), hpending, hschedule⟩

/-- A command presented to an idle engine, with no turn scheduled, runs in the next step. -/
theorem step_transaction_of_idle {i : Instr} {c : CmdWord} {d : Word} {s : State} {rest : List Command}
    (hcode : encode i = .command c d) (hwf : i.wf = true) (hq : s.SEQ = .idle) (hs : s.schedule = [])
    (hpending : s.pending = transaction i :: rest) : step s = exec i { s with pending := rest, out := none } :=
  (step_of_idle_pending hq hs hpending).trans (accept_transaction hcode hwf _)

/-- An `INIT` that is presented to an idle engine opens a computation that takes blocks. -/
theorem runs_init_of_idle {s : State} {rest : List Command} (h : Inv s) (hq : s.SEQ = .idle) (hs : s.schedule = [])
    (hpending : s.pending = transaction .init :: rest) :
    ∃ s', Runs 1 s [⟨0, 0⟩] s' ∧ AwaitsBlocks s' rest ∧ s'.H = IV := by
  have hstep := step_transaction_of_idle (i := .init) rfl rfl hq hs hpending
  have hruns := Runs.of_step (hstep.trans (initStartsAComputation.1 _)) rfl
  exact ⟨_, hruns, ⟨h.runs hruns, hq, .inl rfl, hs, rfl⟩, rfl⟩

/-- A `FINAL` that is presented to an idle engine in `PROCESSING` closes the computation and keeps `H`. -/
theorem runs_final_of_idle {s : State} {rest : List Command} (hp : s.PHASE = .processing) (hq : s.SEQ = .idle)
    (hs : s.schedule = []) (hpending : s.pending = transaction .final :: rest) :
    Runs 1 s [⟨0, 0⟩] { s with PHASE := .finalized, pending := rest, out := some ⟨0, 0⟩ } := by
  have hstep := step_transaction_of_idle (i := .final) rfl rfl hq hs hpending
  exact .of_step (hstep.trans (finalClosesTheComputation.1 _ hp)) rfl

theorem length_digestOfWords (ds : List Word) : (digestOfWords ds).length = 4 * ds.length := by
  simp [digestOfWords, List.length_flatMap, Nat.mul_comm]

/-- The reads that make up the digest of `H` are eight. -/
theorem length_of_digestOfWords_eq_assemble {ds : List Word} {H : Vector Word 8} (h : digestOfWords ds = assemble H) :
    ds.length = 8 := by
  have hlength := congrArg List.length h
  rw [← digestOfWords_toList, length_digestOfWords, length_digestOfWords, Vector.length_toList] at hlength
  omega

/-- From an idle engine, `INIT`, a non-empty list of blocks, `FINAL` and the reads give the digest of the blocks. -/
theorem runs_hash_of_idle {s : State} {blocks : List (List Byte)} (h : Inv s) (hq : s.SEQ = .idle)
    (hs : s.schedule = []) (hne : blocks ≠ [])
    (hpending : s.pending = transaction .init :: blocks.flatMap blockCommands ++ transaction .final :: rdDigest) :
    ∃ (s' : State) (ds : List Word),
      Runs (130 * blocks.length + 10) s
        (List.replicate (17 * blocks.length + 2) ⟨0, 0⟩ ++ ds.map fun d => ⟨0, d⟩) s' ∧
      digestOfWords ds = assemble (chain IV blocks) ∧ s'.PHASE = .finalized ∧ s'.pending = [] := by
  obtain ⟨s₁, hinit, h₁, hIV⟩ := runs_init_of_idle h hq hs hpending
  obtain ⟨s₂, hblocks, h₂, hphase, hH⟩ := h₁.runs_blocks blocks
    (by rintro _ ⟨⟩; exact show cmdWord 5 0 ≠ rdsWord by decide)
  have hfinal := runs_final_of_idle (hphase.trans (if_neg hne)) h₂.idle h₂.schedule h₂.pending
  obtain ⟨ds, o, hreads, hdigest⟩ := (readSequencesGiveDigestAndHex
    { s₂ with PHASE := .finalized, pending := rdDigest, out := some ⟨0, 0⟩ } [] rfl h₂.idle h₂.schedule).1
    (List.append_nil _).symm
  refine ⟨{ s₂ with PHASE := .finalized, pending := [], out := o }, ds, ?runs, ?digest, rfl, rfl⟩
  case runs =>
    have hsteps : 130 * blocks.length + 10 = 1 + 130 * blocks.length + 1 + 8 := by omega
    have hresponses : List.replicate (17 * blocks.length + 2) (⟨0, 0⟩ : Response) =
        [⟨0, 0⟩] ++ List.replicate (17 * blocks.length) ⟨0, 0⟩ ++ [⟨0, 0⟩] := by
      rw [List.replicate_succ, List.replicate_succ']
      rfl
    rw [hsteps, hresponses]
    exact ((hinit.trans hblocks).trans hfinal).trans hreads
  case digest => rw [hdigest, ← hIV, ← hH]

/-- Settles O53: the steps left of an abandoned block, then the run of `runs_hash_of_idle` for the padded blocks. -/
theorem hashProcedureReturnsTheDigest : Obligations.HashProcedureReturnsTheDigest := by
  unfold Obligations.HashProcedureReturnsTheDigest
  intro s m hinv _ hs hpending
  have hu : Undisturbed s := by
    refine ⟨hs, ?_⟩
    rw [hpending]
    rintro _ ⟨⟩
    exact show cmdWord 1 0 ≠ rdsWord by decide
  have hne : paddedBlocks m ≠ [] := List.ne_nil_of_length_eq_add_one (length_paddedBlocks m)
  obtain ⟨s₁, hwait, hinv₁, hidle, hpending₁, hschedule₁⟩ := runs_remaining hinv hu
  obtain ⟨s', ds, hhash, hdigest, hphase, hempty⟩ :=
    runs_hash_of_idle hinv₁ hidle (hschedule₁.trans hs) hne (hpending₁.trans hpending)
  rw [length_paddedBlocks] at hhash
  refine ⟨s', ds, ?runs, hdigest, length_of_digestOfWords_eq_assemble hdigest, hphase, hempty⟩
  case runs => exact hwait.trans hhash

end Sys2Proof.Machine
end

section
/-! The response of a command (R92, R204, R205): `OK`, or the code of the first check it fails. -/

namespace Sys2Proof.Machine

/-- The effect of a command responds `OK` (R92); that of an engine step leaves the response lines alone (R152). -/
theorem Effect.out_cases {i : Instr} {s s' : State} (h : Effect i s s') :
    (IsEngineStep i ∧ s'.out = s.out) ∨ ∃ w, s'.out = some ⟨0, w⟩ := by
  have engine (hi : IsEngineStep i) : s'.out = s.out := by rw [h.engine_frame hi]
  cases i with
  | expand => exact .inl ⟨.inl rfl, engine (.inl rfl)⟩
  | round => exact .inl ⟨.inr (.inl rfl), engine (.inr (.inl rfl))⟩
  | fold => exact .inl ⟨.inr (.inr rfl), engine (.inr (.inr rfl))⟩
  | next => obtain ⟨_, rfl⟩ := h; exact .inr ⟨_, rfl⟩
  | _ => obtain rfl := h; exact .inr ⟨_, rfl⟩

/-- A response that an effect gives is `OK`. -/
theorem Effect.resp_eq_zero {i : Instr} {s s' : State} {r : Response} (h : Effect i s s') (hout : s.out = none)
    (hr : s'.out = some r) : r.resp = 0 := by
  rcases h.out_cases with ⟨_, hsame⟩ | ⟨w, hok⟩
  · rw [hsame, hout] at hr; cases hr
  · rw [hok] at hr; cases hr; rfl

/-- Settles O29: a response other than `OK` comes from `State.raise`, not from an effect. -/
theorem faultChangesOnlyTheRecord : Obligations.FaultChangesOnlyTheRecord := by
  unfold Obligations.FaultChangesOnlyTheRecord
  intro i s s' r hout h hr hfault
  rcases exec_next h with ⟨c, _, rfl⟩ | ⟨_, he⟩
  · obtain rfl : (⟨c.code, 0⟩ : Response) = r := Option.some.inj hr
    exact ⟨rfl, rfl, c.code_range⟩
  · exact absurd (he.resp_eq_zero hout hr) hfault

/-- The code with which a command responds: that of the first check it fails, else 0 (R92, R131). -/
def respCode (i : Instr) (s : State) : BitVec 3 :=
  match firstFault i s with
  | some c => c.code
  | none => 0

theorem respCode_of_firstFault_some {i : Instr} {s : State} {c : Cause} (h : firstFault i s = some c) :
    respCode i s = c.code := by
  rw [respCode, h]

theorem respCode_of_firstFault_none {i : Instr} {s : State} (h : firstFault i s = none) : respCode i s = 0 := by
  rw [respCode, h]

theorem resp_eq_respCode {i : Instr} {s s' : State} {r : Response} (h : exec i s = .next s') (hout : s.out = none)
    (hr : s'.out = some r) : r.resp = respCode i s := by
  rcases exec_next h with ⟨c, hc, rfl⟩ | ⟨hf, he⟩
  · obtain rfl : (⟨c.code, 0⟩ : Response) = r := Option.some.inj hr
    exact (respCode_of_firstFault_some hc).symm
  · exact (he.resp_eq_zero hout hr).trans (respCode_of_firstFault_none hf).symm

/-- Whatever stood on the response lines, a command that answers responds with its code. -/
theorem exists_out_of_exec {i : Instr} {s s' : State} (hi : ¬ IsEngineStep i) (h : exec i s = .next s') :
    ∃ w, s'.out = some ⟨respCode i s, w⟩ := by
  rcases exec_next h with ⟨c, hc, rfl⟩ | ⟨hf, he⟩
  · exact ⟨0, by rw [respCode_of_firstFault_some hc]; rfl⟩
  · rcases he.out_cases with ⟨hengine, _⟩ | hok
    · exact absurd hengine hi
    · rwa [respCode_of_firstFault_none hf]

/-- The order of the checks of an instruction that has an encoding (R205). -/
theorem respCode_of_wf {i : Instr} (hwf : i.wf = true) (s : State) :
    respCode i s =
      if misaligned i = true then 2
      else if permitted i s.PHASE = false then 3
      else if needsBlock i = true ∧ s.blockComplete = false then 4 else 0 := by
  cases hmis : misaligned i with
  | true => simp [respCode, firstFault, hwf, hmis, Cause.code]
  | false =>
    cases hperm : permitted i s.PHASE with
    | false => simp [respCode, firstFault, hwf, hmis, hperm, Cause.code]
    | true =>
      by_cases hblock : needsBlock i = true ∧ s.blockComplete = false
      · simp [respCode, firstFault, hwf, hmis, hperm, hblock, Cause.code]
      · have hpass : firstFault i s = none := (firstFault_none_iff i s).2 ⟨hwf, hmis, hperm, by simpa using hblock⟩
        simp [respCode_of_firstFault_none hpass, hblock]

theorem Phase.takesBlocks_eq_false_iff (p : Phase) : p.takesBlocks = false ↔ p = .uninit ∨ p = .finalized := by
  cases p <;> decide

theorem Phase.beq_finalized_eq_false_iff (p : Phase) :
    (p == .finalized) = false ↔ p = .uninit ∨ p = .initialized ∨ p = .processing := by
  cases p <;> decide

theorem State.blockComplete_eq_false_iff (s : State) : s.blockComplete = false ↔ s.BV ≠ 0xFFFFFFFFFFFFFFFF :=
  beq_eq_false_iff_ne

/-- Past the checks before it, the phase check is decided by the table alone (R203). -/
theorem respCode_eq_phaseError_iff {i : Instr} {s : State} (hwf : i.wf = true) (hmis : misaligned i = false) :
    respCode i s = 3 ↔ permitted i s.PHASE = false := by
  rw [respCode_of_wf hwf, if_neg (by simp [hmis])]
  cases permitted i s.PHASE with
  | false => simp
  | true => by_cases hblock : needsBlock i = true ∧ s.blockComplete = false <;> simp [hblock]

/-- Settles O31: past the checks before it, the phase check gives the response (`respCode_eq_phaseError_iff`), and each
row of the table is read off `permitted`; the engine steps are in no row. -/
theorem phasePermissionTable : Obligations.PhasePermissionTable := by
  unfold Obligations.PhasePermissionTable
  intro i s s' r hwf hwrw hrdw hout h hr
  have hmis : misaligned i = false := by
    cases i with
    | wrw A v => simp [misaligned, aligned, hwrw A v rfl]
    | rdw A => simp [misaligned, aligned, hrdw A rfl]
    | _ => rfl
  rw [resp_eq_respCode h hout hr, respCode_eq_phaseError_iff hwf hmis]
  cases i with
  | wrw A v => exact s.PHASE.takesBlocks_eq_false_iff
  | wrb A b => exact s.PHASE.takesBlocks_eq_false_iff
  | next => exact s.PHASE.takesBlocks_eq_false_iff
  | final => cases s.PHASE <;> decide
  | rdw A => exact s.PHASE.beq_finalized_eq_false_iff
  | rdb A => exact s.PHASE.beq_finalized_eq_false_iff
  | rdx A => exact s.PHASE.beq_finalized_eq_false_iff
  | _ => simp [permitted]

end Sys2Proof.Machine
end

section
/-! An accepted transaction answers (R245): where every valid byte holds a value no command stops the model, and a
command word issues no engine step. -/

namespace Sys2Proof.Machine

theorem not_isEngineStep_of_decodeCommand {c : CmdWord} {d : Word} {i : Instr} (h : decodeCommand c d = .legal i) :
    ¬ IsEngineStep i := by
  obtain ⟨hexpand, hround, hfold⟩ := decodeCommand_not_engine h
  exact not_or.2 ⟨hexpand, not_or.2 ⟨hround, hfold⟩⟩

theorem exec_answers {i : Instr} {s : State} (hi : ¬ IsEngineStep i) (hvalued : BytesValued s) :
    ∃ s', exec i s = .next s' := by
  rcases modelStopsOnlyWhereNoValueExists i s with hnext | ⟨rfl, _⟩ | ⟨_, _, hbyte, _⟩
  · exact hnext
  · exact absurd (.inl rfl) hi
  · exact absurd hvalued hbyte

theorem accept_answers (c : Command) {s : State} (hvalued : BytesValued s) : ∃ s', accept c s = .next s' := by
  rcases accept_cases c s with ⟨_, _, hillegal⟩ | ⟨i, hi, hlegal⟩
  · exact ⟨_, hillegal⟩
  · rw [hlegal]
    exact exec_answers (not_isEngineStep_of_decodeCommand hi) hvalued

/-- Settles O30: an illegal word raises its fault; a legal one answers (`exec_answers`) with `respCode`, whose order of
checks (`respCode_of_wf`) is read off row by row. -/
theorem firstFailingCheckDecides : Obligations.FirstFailingCheckDecides := by
  unfold Obligations.FirstFailingCheckDecides
  intro c s hvalued
  rcases accept_cases c s with ⟨why, hwhy, ha⟩ | ⟨i, hi, ha⟩
  · exact ⟨_, _, ha, rfl, by rw [hwhy]; rfl⟩
  have hcommand := not_isEngineStep_of_decodeCommand hi
  obtain ⟨s', he⟩ := exec_answers hcommand hvalued
  obtain ⟨w, hw⟩ := exists_out_of_exec hcommand he
  refine ⟨s', _, ha.trans he, hw, ?_⟩
  rw [hi, respCode_of_wf (wf_of_decodeCommand hi)]
  cases i with
  | wrw A v => simp [misaligned, permitted, aligned, needsBlock, Phase.takesBlocks_eq_false_iff]
  | wrb A b => simp [misaligned, permitted, needsBlock, Phase.takesBlocks_eq_false_iff]
  | next =>
    simp [misaligned, permitted, needsBlock, Phase.takesBlocks_eq_false_iff, State.blockComplete_eq_false_iff]
  | rdw A => simp [misaligned, permitted, aligned, needsBlock]
  | _ => simp [misaligned, permitted, needsBlock]

theorem hostTurn_answers {s : State} (hvalued : BytesValued s) : ∃ s', hostTurn s = .next s' := by
  cases hp : s.pending with
  | nil => exact ⟨s, hostTurn_nil hp⟩
  | cons c rest =>
    cases hr : cmdReady s.SEQ c.cmd with
    | false => exact ⟨s, hostTurn_held hp hr⟩
    | true =>
      rw [hostTurn_ready hp hr]
      exact accept_answers c (s := { s with pending := rest }) hvalued

theorem sequencerTurn_answers {s : State} (hinv : Inv s) : ∃ s', sequencerTurn s = .next s' := by
  by_cases hq : s.SEQ = .idle
  · exact ⟨s, sequencerTurn_idle hq⟩
  · obtain ⟨i, s', hi, he, _⟩ := engineStep_of_busy hinv hq
    exact ⟨s', (sequencerTurn_legal hi).trans he⟩

theorem runTurn_answers (turn : Turn) {s : State} (hinv : Inv s) : ∃ s', runTurn turn s = .next s' := by
  cases turn with
  | host => exact hostTurn_answers hinv.valued
  | poll => exact accept_answers ⟨rdsWord, 0⟩ hinv.valued
  | withdraw => exact ⟨_, rfl⟩
  | reset => exact ⟨_, rfl⟩
  | sequencer => exact sequencerTurn_answers hinv

/-- Settles O39: every turn answers (`runTurn_answers`), and neither `INIT` nor `RDS` has a check to fail. -/
theorem noStateOfARunIsStuck : Obligations.NoStateOfARunIsStuck := by
  unfold Obligations.NoStateOfARunIsStuck
  refine ⟨fun s hinv => ?answers, fun s d _ => ⟨?init, ?rds⟩⟩
  case answers => exact runTurn_answers (nextTurn s) (hinv.port s.pending s.schedule.tail none)
  case init =>
    have hinit : decodeCommand 0x1000 d = .legal .init := rfl
    exact ⟨_, (accept_legal (c := ⟨0x1000, d⟩) s hinit).trans (initStartsAComputation.1 s), rfl⟩
  case rds =>
    have hrds : decodeCommand 0x9000 d = .legal .rds := rfl
    exact ⟨_, _, (accept_legal (c := ⟨0x9000, d⟩) s hrds).trans (checked_of_firstFault_none (firstFault_rds s) _), rfl⟩

end Sys2Proof.Machine
end

section
/-! The fault record (R35, R208): no effect writes it, and only `RDS` reads it. -/

namespace Sys2Proof.Machine

theorem Effect.record_eq {i : Instr} {s s' : State} (h : Effect i s s') : s'.ERR = s.ERR ∧ s'.CAUSE = s.CAUSE := by
  cases i with
  | expand => obtain ⟨_, rfl⟩ := h; simp
  | round => obtain rfl := h; simp
  | next => obtain ⟨_, rfl⟩ := h; exact ⟨rfl, rfl⟩
  | _ => obtain rfl := h; exact ⟨rfl, rfl⟩

/-- The state with another fault record. -/
def State.withRecord (s : State) (e : Bool) (k : BitVec 3) : State :=
  { s with ERR := e, CAUSE := k }

theorem State.advance_withRecord (s : State) (e : Bool) (k : BitVec 3) (after : Seq) :
    (s.withRecord e k).advance after = (s.advance after).withRecord e k := by
  unfold State.advance State.withRecord
  dsimp only
  split <;> rfl

/-- The checks of R131 do not read the fault record. -/
theorem firstFault_withRecord (i : Instr) (s : State) (e : Bool) (k : BitVec 3) :
    firstFault i (s.withRecord e k) = firstFault i s := rfl

theorem Effect.withRecord {i : Instr} {s s' : State} (h : Effect i s s') (hi : i ≠ .rds) (e : Bool) (k : BitVec 3) :
    Effect i (s.withRecord e k) (s'.withRecord e k) := by
  cases i with
  | rds => exact absurd rfl hi
  | next => obtain ⟨hfull, rfl⟩ := h; exact ⟨hfull, rfl⟩
  | expand => obtain ⟨ht, rfl⟩ := h; exact ⟨ht, (State.advance_withRecord _ e k .round).symm⟩
  | round => obtain rfl := h; exact (State.advance_withRecord _ e k .fold).symm
  | _ => obtain rfl := h; rfl

theorem exec_of_firstFault_some {i : Instr} {s : State} {c : Cause} (h : firstFault i s = some c) :
    exec i s = .next (s.raise c) := by
  cases i with
  | expand => cases h
  | round => cases h
  | fold => cases h
  | _ => exact checked_of_firstFault_some h _

/-- An instruction that passes its checks answers its effect: with `exec_of_firstFault_some`, the converse of
`exec_next`. -/
theorem Effect.exec_eq {i : Instr} {s s' : State} (h : Effect i s s') (hf : firstFault i s = none) :
    exec i s = .next s' := by
  cases i with
  | expand => exact (exec_engine_iff (.inl rfl)).2 h
  | round => exact (exec_engine_iff (.inr (.inl rfl))).2 h
  | fold => exact (exec_engine_iff (.inr (.inr rfl))).2 h
  | next => obtain ⟨hfull, rfl⟩ := h; exact (checked_of_firstFault_none hf _).trans (if_pos hfull)
  | _ => obtain rfl := h; exact checked_of_firstFault_none hf _

/-- Settles O32: of the outcomes of a step (`step_outcome`) that are not `RESET` only a fault writes the record, and it
keeps the first cause; with another record the same check fails, or the same effect follows (`Effect.withRecord`). -/
theorem faultRecordIsStickyAndInert : Obligations.FaultRecordIsStickyAndInert := by
  unfold Obligations.FaultRecordIsStickyAndInert
  refine ⟨fun s s' h hturn herr => ?sticky, fun i s s' e k hi h => ?inert, fun s s' e k h => ?status⟩
  case sticky =>
    cases step_outcome h with
    | port p eq => subst eq; exact ⟨herr, rfl⟩
    | reset turn eq => exact absurd turn hturn
    | fault p c eq => subst eq; exact ⟨rfl, if_pos herr⟩
    | effect p i issued passes eff =>
      obtain ⟨hERR, hCAUSE⟩ := eff.record_eq
      exact ⟨hERR.trans herr, hCAUSE⟩
  case inert =>
    rcases exec_next h with ⟨c, hc, rfl⟩ | ⟨hf, he⟩
    · exact ⟨_, _, exec_of_firstFault_some (s := s.withRecord e k) hc⟩
    · exact ⟨e, k, (he.withRecord hi e k).exec_eq hf⟩
  case status =>
    obtain rfl : s.respond s.STATUS = s' := Host.Outcome.next.inj h
    exact ⟨_, rfl⟩

end Sys2Proof.Machine
end

section
/-! The event `RESET` as a step (R230). -/

namespace Sys2Proof.Machine

/-- Settles O10: the step is `State.resetEvent`, whose fields are those of R51. -/
theorem resetEventClearsTheControlState : Obligations.ResetEventClearsTheControlState := by
  unfold Obligations.ResetEventClearsTheControlState
  intro s ht
  exact ⟨s.beginStep.resetEvent, step_eq_runTurn ht, rfl, rfl, rfl, rfl, rfl, rfl, fun _ => rfl, rfl, rfl, rfl⟩

end Sys2Proof.Machine
end
